-- ==== Sys2Proof/Word.lean ====
section
/-! DEFINITION. The values of the block: levels, sensed levels, pad values, modes, lines, directions
(spec 00_scope.md R10, 10_state.md R38, 30_encoding.md R87). -/

namespace Sys2Proof

/-- A Level: 0 (low) or 1 (high) (R10). -/
inductive Level
  | low
  | high
deriving DecidableEq, Repr, Inhabited

/-- A SenseLevel: 0, 1 or INV, a sensed value that is no valid digital level (R10). -/
inductive SenseLevel
  | valid (b : Level)
  | inv
deriving DecidableEq, Repr, Inhabited

/-- A DriveValue: 0, 1, or Z where the line is not driven (R10). -/
inductive DriveValue
  | driven (b : Level)
  | z
deriving DecidableEq, Repr, Inhabited

/-- The direction of a line: IN (sense) or OUT (drive) (R10, R38). -/
inductive Mode
  | input
  | output
deriving DecidableEq, Repr, Inhabited

/-- The three tristate lines VDOWN, VUP and PWR (R10). ACT is no Line. -/
inductive Line
  | vdown
  | vup
  | pwr
deriving DecidableEq, Repr, Inhabited

/-- A Direction of a step: +1 or -1 (R10). -/
inductive Direction
  | plus
  | minus
deriving DecidableEq, Repr, Inhabited

/-- A phase index, 0 to 3 (R15, R87). -/
abbrev Phase := Fin 4



/-- One value for each of the three lines: the spec's `x[L]`. -/
structure PerLine (α : Type) where
  vdown : α
  vup : α
  pwr : α
deriving DecidableEq, Repr, Inhabited

end Sys2Proof
end

