-- ==== Sys2Proof/Syntax.lean ====
section
/-! DEFINITION. The command word, the results, the events and the instructions: one constructor of
`Instr` for each row of spec/opcode_table.json. -/

namespace Sys2Proof

/-- The command word (code, address, control) of the command port (30_encoding.md R80, R81): three
unsigned integers on separate signals. Their widths are the parameters CODE_W, ADDR_W and CTRL_W;
`CmdWord.fits` (WellFormed.lean) says that a word has them. -/
structure CmdWord where
  code : Nat
  address : Nat
  control : Nat
deriving DecidableEq, Repr, Inhabited

/-- The commands a code decodes to (30_encoding.md R82). -/
inductive Cmd
  | volumeUp
  | volumeDown
  | mute
  | power
  | unrecognized
deriving DecidableEq, Repr, Inhabited

/-- The result of a command (30_encoding.md R92). Code 3 is reserved and is no result. -/
inductive Result
  | ok
  | unrecognized
  | protocolError
deriving DecidableEq, Repr, Inhabited

/-- The events of a run's history (00_scope.md R14). -/
inductive Event
  | accept (code address control : Nat)
  | mode (l : Line) (m : Mode)
  | latch (l : Line) (b : Level)
  | sample (l : Line) (s : SenseLevel)
  | act (b : Level)
  | log (code : Nat)
  | done (r : Result)
deriving DecidableEq, Repr, Inhabited

/-- A history: timestamped events, oldest first (00_scope.md R14). -/
abbrev History := List (Nat × Event)

/-- The four two-line forms on the pair (VDOWN, VUP) (40_line_primitives.md R113): the operand of the
table's row SET_MODE2_READ2_WRITE2. A pair is (down, up). -/
inductive PairOp
  | setModeIn
  | setModeOut (a b : Level)
  | read
  | write (a b : Level)
deriving DecidableEq, Repr, Inhabited

/-- The instructions: the five rows of format CMD, which the host presents at the command port, and the
thirteen rows of format INTERNAL, which only the sequencer issues (30_encoding.md R89). -/
inductive Instr
  /-- VOLUME_UP (42_quadrature.md R157). -/
  | volumeUp
  /-- VOLUME_DOWN (42_quadrature.md R158). -/
  | volumeDown
  /-- MUTE (43_mute.md R180). -/
  | mute
  /-- POWER (44_power.md R200). -/
  | power
  /-- UNRECOGNIZED (41_dispatch.md R133), with its operand `cmd.code`. -/
  | unrecognized (code : Nat)
  /-- SET_MODE_IN (40_line_primitives.md R101). -/
  | setModeIn (l : Line)
  /-- SET_MODE_OUT (R102). -/
  | setModeOut (l : Line) (init : Level)
  /-- READ (R103). -/
  | read (l : Line)
  /-- WRITE (R104). -/
  | write (l : Line) (b : Level)
  /-- WAIT (R105). -/
  | wait (t : Nat)
  /-- SET_ACT (R106). -/
  | setAct (b : Level)
  /-- EMIT (R107). -/
  | emit (e : Event)
  /-- SET_MODE2_READ2_WRITE2 (R113). -/
  | pair (op : PairOp)
  /-- ACTIVITY_PULSE (41_dispatch.md R134). -/
  | activityPulse
  /-- RESOLVE (42_quadrature.md R151). -/
  | resolve (sd su : SenseLevel)
  /-- STEP (42_quadrature.md R152). -/
  | step (d : Direction)
  /-- PRESS_POWER (44_power.md R201). -/
  | pressPower
  /-- BOOT_SEQUENCE (70_reset_and_hazards.md R251). -/
  | bootSequence
deriving DecidableEq, Repr, Inhabited

/-- Format CMD or INTERNAL: whether the host can present the instruction (30_encoding.md R89). -/
def Instr.isCommand : Instr → Bool
  | .volumeUp => true
  | .volumeDown => true
  | .mute => true
  | .power => true
  | .unrecognized _ => true
  | .setModeIn _ => false
  | .setModeOut _ _ => false
  | .read _ => false
  | .write _ _ => false
  | .wait _ => false
  | .setAct _ => false
  | .emit _ => false
  | .pair _ => false
  | .activityPulse => false
  | .resolve _ _ => false
  | .step _ => false
  | .pressPower => false
  | .bootSequence => false

end Sys2Proof
end

