-- ==== Sys2Proof/Config.lean ====
section
/-! DEFINITION. The parameters of the block (00_scope.md R7), as a record that State carries, and the
constants that have no body: the OPEN parameters of the reset state and the environment's free answers. -/

namespace Sys2Proof

/-- What MUTE does when `vol < 0` (43_mute.md R184, D15). -/
inductive MuteOnNegative
  | noop
  | unmute
deriving DecidableEq, Repr, Inhabited

/-- The implementation parameters of 00_scope.md R7. They are fixed for a machine: no step changes
them. Every statement about all states holds for all their values. -/
structure Params where
  /-- CODE_W, at least 5 (`Params.legal`). -/
  codeW : Nat
  /-- ADDR_W. -/
  addrW : Nat
  /-- CTRL_W. -/
  ctrlW : Nat
  /-- T_SETTLE, ms. -/
  tSettle : Nat
  /-- T_TAIL, ms. -/
  tTail : Nat
  /-- T_POWER, ms. -/
  tPower : Nat
  /-- T_BLINK, ms. -/
  tBlink : Nat
  /-- T_BOOT_ON, ms. -/
  tBootOn : Nat
  /-- T_BOOT_OFF, ms. -/
  tBootOff : Nat
  /-- VOL_INIT, any integer. -/
  volInit : Int
  /-- OLD_INIT, at least 0 by its type. -/
  oldInit : Nat
  /-- MUTE_ON_NEGATIVE. -/
  muteOnNegative : MuteOnNegative
  /-- VOL_W: `none` is the unbounded integer of R9, `some w` a finite implementation of w bits (R224). -/
  volW : Option Nat
  /-- TICK. No rule depends on it (R6, R7), so nothing reads it. -/
  tick : Nat
deriving DecidableEq, Repr, Inhabited

/-- CODE_W is at least 5 (R7: 21 needs 5 bits). -/
def Params.legal (P : Params) : Bool := decide (5 ≤ P.codeW)

/-- How far CODE_W exceeds 5. OPEN (R7). Log entry 1. -/
opaque Config.codeWAboveFive : Nat
/-- ADDR_W. OPEN (R7). Log entry 1. -/
opaque Config.addrW : Nat
/-- CTRL_W. OPEN (R7). Log entry 1. -/
opaque Config.ctrlW : Nat
/-- T_BLINK. OPEN (R7). Log entry 1. -/
opaque Config.tBlink : Nat
/-- T_BOOT_ON. OPEN (R7). Log entry 1. -/
opaque Config.tBootOn : Nat
/-- T_BOOT_OFF. OPEN (R7). Log entry 1. -/
opaque Config.tBootOff : Nat
/-- VOL_INIT. OPEN, any integer (R7, D13). Log entry 1. -/
opaque Config.volInit : Int
/-- OLD_INIT. OPEN, at least 0 (R7, D13). Log entry 1. -/
opaque Config.oldInit : Nat
/-- TICK. OPEN (R7). Log entry 1. -/
opaque Config.tick : Nat

/-- The parameters of the machine that `State.reset` is: the values 00_scope.md R7 gives (T_SETTLE 90
and T_POWER 200, nominal; T_TAIL 0; MUTE_ON_NEGATIVE NOOP; an unbounded volume), and for every OPEN
parameter a constant without a body. -/
def Config.params : Params where
  codeW := 5 + Config.codeWAboveFive
  addrW := Config.addrW
  ctrlW := Config.ctrlW
  tSettle := 90
  tTail := 0
  tPower := 200
  tBlink := Config.tBlink
  tBootOn := Config.tBootOn
  tBootOff := Config.tBootOff
  volInit := Config.volInit
  oldInit := Config.oldInit
  muteOnNegative := .noop
  volW := none
  tick := Config.tick

/-- `env_sense(L, t, history)` (40_line_primitives.md R103, R110): the environment's answer to a READ
that the tape `env` of the state has no answer for. Free: under no law. Log entry 2. -/
opaque Config.envSense : Line → Nat → History → SenseLevel

/-- What an observer finds on a pad whose level the spec leaves unspecified: a line that the block and
the environment both drive (70_reset_and_hazards.md R256), or that neither drives. Free. Log entry 9. -/
opaque Config.contended : Line → Nat → History → SenseLevel

end Sys2Proof
end

