-- ==== Sys2Proof/WellFormed.lean ====
section
/-! DEFINITION. What makes a command word and an instruction well-formed for a block with given
parameters. -/

namespace Sys2Proof

/-- The word has the widths of the command port's three fields (30_encoding.md R81). -/
def CmdWord.fits (P : Params) (w : CmdWord) : Bool :=
  decide (w.code < 2 ^ P.codeW) && decide (w.address < 2 ^ P.addrW) && decide (w.control < 2 ^ P.ctrlW)

/-- The four recognized codes (30_encoding.md R83). -/
def recognizedCodes : List Nat := [18, 19, 20, 21]

/-- UNRECOGNIZED stands for a code of CODE_W bits that is none of the four (30_encoding.md R83, R84). -/
def wfUnrecognized (P : Params) (code : Nat) : Bool :=
  decide (code < 2 ^ P.codeW) && !(recognizedCodes.contains code)

/-- WAIT's operand is one of the six delays (40_line_primitives.md R105). -/
def wfWait (P : Params) (t : Nat) : Bool :=
  [P.tSettle, P.tTail, P.tPower, P.tBlink, P.tBootOn, P.tBootOff].contains t

/-- The command logic emits only LOG and DONE directly (40_line_primitives.md R107). -/
def wfEmit : Event → Bool
  | .log _ => true
  | .done _ => true
  | .accept _ _ _ => false
  | .mode _ _ => false
  | .latch _ _ => false
  | .sample _ _ => false
  | .act _ => false

/-- The instruction is one that a block with parameters `P` has. Operands whose type admits only what
the spec admits (lines, levels, directions, sensed levels) need no check. -/
def Instr.wf (P : Params) : Instr → Bool
  | .volumeUp => true
  | .volumeDown => true
  | .mute => true
  | .power => true
  | .unrecognized code => wfUnrecognized P code
  | .setModeIn _ => true
  | .setModeOut _ _ => true
  | .read _ => true
  | .write _ _ => true
  | .wait t => wfWait P t
  | .setAct _ => true
  | .emit e => wfEmit e
  | .pair _ => true
  | .activityPulse => true
  | .resolve _ _ => true
  | .step _ => true
  | .pressPower => true
  | .bootSequence => true

end Sys2Proof
end

