-- ==== Sys2Proof/Decode.lean ====
section
/-! DEFINITION. The decoder of command words (30_encoding.md R80 to R85), the encoder, the packed word,
the result codes (R92) and the assembler notation (R91). Decoding is total: no code is illegal (R84). -/

namespace Sys2Proof

/-- `decode(code)` (30_encoding.md R82): exact equality of the whole code, no truncation (R85). -/
def decodeCode (code : Nat) : Cmd :=
  if code = 18 then .volumeUp
  else if code = 19 then .volumeDown
  else if code = 20 then .mute
  else if code = 21 then .power
  else .unrecognized

/-- The instruction of a command; UNRECOGNIZED takes the code as its operand (41_dispatch.md R133). -/
def Cmd.instr (code : Nat) : Cmd → Instr
  | .volumeUp => .volumeUp
  | .volumeDown => .volumeDown
  | .mute => .mute
  | .power => .power
  | .unrecognized => .unrecognized code

/-- The instruction a command word stands for. `address` and `control` are ignored (R85). -/
def decode (w : CmdWord) : Instr := (decodeCode w.code).instr w.code

/-- The code of an instruction of format CMD (30_encoding.md R83); an INTERNAL one has none (R89). -/
def codeOf : Instr → Option Nat
  | .volumeUp => some 18
  | .volumeDown => some 19
  | .mute => some 20
  | .power => some 21
  | .unrecognized code => some code
  | .setModeIn _ => none
  | .setModeOut _ _ => none
  | .read _ => none
  | .write _ _ => none
  | .wait _ => none
  | .setAct _ => none
  | .emit _ => none
  | .pair _ => none
  | .activityPulse => none
  | .resolve _ _ => none
  | .step _ => none
  | .pressPower => none
  | .bootSequence => none

/-- The command word of an instruction, with the two ignored fields as given; none for INTERNAL ones. -/
def encode (i : Instr) (address control : Nat) : Option CmdWord :=
  (codeOf i).map fun code => { code := code, address := address, control := control }

/-- The word as one number (R81): code lowest, address above it, control at the top. -/
def packWord (P : Params) (w : CmdWord) : Nat :=
  w.code + 2 ^ P.codeW * (w.address + 2 ^ P.addrW * w.control)

/-- The word a packed number stands for (R81). -/
def unpackWord (P : Params) (x : Nat) : CmdWord where
  code := x % 2 ^ P.codeW
  address := x / 2 ^ P.codeW % 2 ^ P.addrW
  control := x / 2 ^ P.codeW / 2 ^ P.addrW % 2 ^ P.ctrlW

/-- The command word of a row of the opcode table: the table gives bits to `code` alone, so its `nbits`
bits are the code and the other fields are 0. -/
def wordOfTable (nbits w : Nat) : CmdWord where
  code := w % 2 ^ nbits
  address := 0
  control := 0

/-- What the decoder reads from an instruction whose bits are `w`. -/
def decodeTableWord (nbits w : Nat) : Option Instr := some (decode (wordOfTable nbits w))

/-- The 2-bit result code of a DONE event (30_encoding.md R92). -/
def resultCode : Result → BitVec 2
  | .ok => 0
  | .unrecognized => 1
  | .protocolError => 2

/-- The result of a 2-bit code; code 3 is reserved and stands for none (R92). -/
def resultOfCode (c : BitVec 2) : Option Result :=
  if c = 0 then some .ok
  else if c = 1 then some .unrecognized
  else if c = 2 then some .protocolError
  else none

/-! The assembler notation of 30_encoding.md R91, for test programs. No behaviour depends on it. -/

/-- A line of a program: `CMD c[, a[, k]]` or one of the four pseudo-instructions (R91). -/
inductive AsmLine
  | cmd (c a k : Nat)
  | volup
  | voldn
  | mute
  | power
deriving DecidableEq, Repr, Inhabited

/-- The command word an assembler line presents (R91). -/
def AsmLine.word : AsmLine → CmdWord
  | .cmd c a k => { code := c, address := a, control := k }
  | .volup => { code := 18, address := 0, control := 0 }
  | .voldn => { code := 19, address := 0, control := 0 }
  | .mute => { code := 20, address := 0, control := 0 }
  | .power => { code := 21, address := 0, control := 0 }

/-- The value of a digit in base 10 or 16. -/
def digitValue (c : Char) : Option Nat :=
  if '0' ≤ c ∧ c ≤ '9' then some (c.toNat - '0'.toNat)
  else if 'a' ≤ c ∧ c ≤ 'f' then some (c.toNat - 'a'.toNat + 10)
  else if 'A' ≤ c ∧ c ≤ 'F' then some (c.toNat - 'A'.toNat + 10)
  else none

/-- The number of the digits in base `base`, most significant first, `acc` being the number so far. -/
def digitsValue (base : Nat) : Nat → List Char → Option Nat
  | acc, [] => some acc
  | acc, c :: cs =>
    match digitValue c with
    | some v => if v < base then digitsValue base (acc * base + v) cs else none
    | none => none

/-- A number: decimal unless written 0x... (R91). -/
def asmNumber : List Char → Option Nat
  | '0' :: 'x' :: c :: cs => digitsValue 16 0 (c :: cs)
  | [] => none
  | cs => digitsValue 10 0 cs

/-- The tokens of a line: words, and each comma as a token of its own; `word` is the word so far. The
rest of the line from `;` on is a comment (R91). -/
def asmTokens : List Char → List Char → List (List Char)
  | word, [] => if word.isEmpty then [] else [word]
  | word, c :: cs =>
    if c = ';' then (if word.isEmpty then [] else [word])
    else if c = ',' then
      (if word.isEmpty then [] else [word]) ++ [','] :: asmTokens [] cs
    else if c = ' ' ∨ c = '\t' then
      (if word.isEmpty then [] else [word]) ++ asmTokens [] cs
    else asmTokens (word ++ [c]) cs

/-- The operands of `CMD`: one to three numbers between commas, the missing ones 0 (R91). -/
def asmOperands : List (List Char) → Option AsmLine
  | [c] => do return .cmd (← asmNumber c) 0 0
  | [c, [','], a] => do return .cmd (← asmNumber c) (← asmNumber a) 0
  | [c, [','], a, [','], k] => do return .cmd (← asmNumber c) (← asmNumber a) (← asmNumber k)
  | _ => none

/-- One line of a program: `some none` for an empty or comment line, `none` for what is no line. -/
def assembleLine (line : List Char) : Option (Option AsmLine) :=
  match asmTokens [] line with
  | [] => some none
  | ['C', 'M', 'D'] :: operands => (asmOperands operands).map some
  | [['V', 'O', 'L', 'U', 'P']] => some (some .volup)
  | [['V', 'O', 'L', 'D', 'N']] => some (some .voldn)
  | [['M', 'U', 'T', 'E']] => some (some .mute)
  | [['P', 'O', 'W', 'E', 'R']] => some (some .power)
  | _ => none

end Sys2Proof
end

