-- ==== Sys2Proof/Machine/State.lean ====
section
/-! DEFINITION. The state of the block, the reasons a step can stop, and the state after reset. -/

namespace Sys2Proof.Machine

/-- The position of the next line in a command's pseudocode (10_state.md R35). Lines that are no
primitive (an assignment such as `vol <- vol + d`) are positions too; they take no time. -/
inductive Pos
  /-- EMIT LOG of 41_dispatch.md R133. -/
  | log
  /-- Line `k` of the activity pulse (41_dispatch.md R134). -/
  | pulse (k : Fin 3)
  /-- The choice of MUTE's branch (43_mute.md R180). -/
  | branch
  /-- Line `k` of STEP, its loop over `off` written out (42_quadrature.md R152). -/
  | step (k : Fin 14)
  /-- Line `k` of PRESS_POWER (44_power.md R201). -/
  | power (k : Fin 4)
  /-- EMIT DONE of 41_dispatch.md R136 or R133. -/
  | done
deriving DecidableEq, Repr, Inhabited

/-- The primitive a LineModeViolation names (60_exceptions.md R223). -/
inductive LineOp
  | read
  | write
deriving DecidableEq, Repr

/-- The faults (60_exceptions.md R220). The instruction that raises one enters the fault state
(`enterFault`), and a step that waits in that state while the host has no more moves answers it as its
outcome (log entry 5). -/
inductive Fault
  /-- LineModeViolation (R223): raised by READ of a line in output mode and by WRITE of a line in input
  mode. The spec's own fault, so safe. -/
  | lineModeViolation (op : LineOp) (l : Line)
  /-- VolumeOverflow (R224): raised by `vol <- vol + d` outside the range of a finite VOL_W. The spec's
  own fault; the range is the model's (log entry 8), unsafe there. -/
  | volumeOverflow
deriving DecidableEq, Repr

/-- The sequencer position (10_state.md R35), and the state FAULT of 60_exceptions.md R223 (log entry 5). -/
inductive Seq
  | boot (k : Fin 8)
  | idle
  | busy (c : Cmd) (k : Pos)
  /-- FAULT: no primitive is issued, no command accepted, no DONE emitted; only a reset leaves it. -/
  | fault (r : Fault)
deriving DecidableEq, Repr

/-- What the host does in one cycle of the sequencer (41_dispatch.md R130, R131, R139;
70_reset_and_hazards.md R250; log entry 3). -/
inductive HostMove
  /-- Presents nothing. -/
  | nothing
  /-- Presents a word for this cycle and withdraws it if it is not accepted. -/
  | offer (w : CmdWord)
  /-- Presents a word until it is accepted. -/
  | hold (w : CmdWord)
  /-- Drives reset. -/
  | reset
deriving DecidableEq, Repr, Inhabited

/-- The state. The first thirteen fields are the elements of 10_state.md R30; `history` is the
observation of 00_scope.md R14; the last four are the model's own. -/
structure State where
  /-- `vol` (R31). -/
  vol : Int
  /-- `old` (R32). -/
  old : Int
  /-- `mode[L]` (R38). -/
  mode : PerLine Mode
  /-- `lat[L]` (R39). -/
  lat : PerLine Level
  /-- `act` (R40). -/
  act : Level
  /-- `seq` (R35; in FAULT, 60_exceptions.md R223 and log entry 5). -/
  seq : Seq
  /-- `cmd` (R30; 41_dispatch.md R130). -/
  cmd : CmdWord
  /-- `p`, the resolved phase (R43). -/
  p : Phase
  /-- `d`, the direction of the running STEP (R43). -/
  d : Direction
  /-- `off`, the offset of the last phase drive (R43). -/
  off : Fin 4
  /-- `n`, the mute step count (R43; 43_mute.md R181). -/
  n : Nat
  /-- `i`, the mute loop index (R43). -/
  i : Nat
  /-- `now`, block time in ms (R30; 60_exceptions.md R231). -/
  now : Nat
  /-- The history since the last reset (00_scope.md R14; log entry 6). -/
  history : History
  /-- The value the last READ of each line returned: `sd` and `su` of 40_line_primitives.md R113
  (log entry 7). -/
  sensed : PerLine SenseLevel
  /-- The parameters of 00_scope.md R7. -/
  params : Params
  /-- The environment's answers to the coming READs (40_line_primitives.md R110; log entry 2). -/
  env : List SenseLevel
  /-- The host's coming moves, one a cycle (log entry 3). -/
  host : List HostMove
deriving DecidableEq, Repr

/-- The refusals. Every instruction has a meaning, so no step answers one. -/
inductive Refusal
  /-- Raised only by an arm of `exec` for an instruction without a meaning. There is none. Safe. -/
  | notModelled (mnemonic : String)
deriving DecidableEq, Repr

/-- The state after reset of a block with parameters `P` (10_state.md R46, 70_reset_and_hazards.md
R250): VOL_INIT, OLD_INIT, all lines IN, `act` 0, `now` 0, BOOT(0). Where R46 says unspecified the
model names a value (log entry 4); the history is empty (log entry 6). -/
def State.resetOf (P : Params) : State where
  vol := P.volInit
  old := P.oldInit
  mode := { vdown := .input, vup := .input, pwr := .input }
  lat := { vdown := .low, vup := .low, pwr := .low }
  act := .low
  seq := .boot 0
  cmd := { code := 0, address := 0, control := 0 }
  p := 0
  d := .plus
  off := 0
  n := 0
  i := 0
  now := 0
  history := []
  sensed := { vdown := .valid .low, vup := .valid .low, pwr := .valid .low }
  params := P
  env := []
  host := []

/-- The machine right after reset. -/
def State.reset : State := State.resetOf Config.params

end Sys2Proof.Machine
end

