-- ==== Sys2Proof/Machine/Operands.lean ====
section
/-! DEFINITION. Operands: the selection of a line, the delays, directions, `mod4`, the phase table and
its inverse (00_scope.md R11, R15; 30_encoding.md R86 to R88). -/

namespace Sys2Proof.Machine

/-- `x[L]`. -/
def get {α : Type} (x : PerLine α) : Line → α
  | .vdown => x.vdown
  | .vup => x.vup
  | .pwr => x.pwr

/-- `x[L] <- v`. -/
def set {α : Type} (x : PerLine α) (l : Line) (v : α) : PerLine α :=
  match l with
  | .vdown => { x with vdown := v }
  | .vup => { x with vup := v }
  | .pwr => { x with pwr := v }

/-- A direction as the integer +1 or -1 (R10, R86). -/
def dirInt : Direction → Int
  | .plus => 1
  | .minus => -1

/-- The Euclidean remainder modulo 4 (R11). -/
def mod4 (x : Int) : Phase :=
  ⟨(x % 4).toNat, by omega⟩

/-- The phase table `PH` (30_encoding.md R87): the pair (down, up) of phase `p`. -/
def phasePair (p : Phase) : Level × Level :=
  match p with
  | 0 => (.low, .low)
  | 1 => (.high, .low)
  | 2 => (.high, .high)
  | 3 => (.low, .high)

/-- `idx` (R88): the phase of a pair of Levels. -/
def phaseIndex : Level → Level → Phase
  | .low, .low => 0
  | .high, .low => 1
  | .high, .high => 2
  | .low, .high => 3

/-- The phase of a sensed pair, if it has one (42_quadrature.md R151). -/
def resolvePair : SenseLevel → SenseLevel → Option Phase
  | .valid a, .valid b => some (phaseIndex a b)
  | .valid _, .inv => none
  | .inv, .valid _ => none
  | .inv, .inv => none

/-- `mod4(p + d*off)` (42_quadrature.md R152): the phase of the drive at offset `off`. -/
def drivePhase (p : Phase) (d : Direction) (off : Fin 4) : Phase :=
  mod4 ((p.val : Int) + dirInt d * (off.val : Int))

/-- The named delays, operands of WAIT (40_line_primitives.md R105). -/
inductive Delay
  | settle
  | tail
  | power
  | blink
  | bootOn
  | bootOff
deriving DecidableEq, Repr

/-- The length of a named delay (00_scope.md R7). -/
def delayMs (P : Params) : Delay → Nat
  | .settle => P.tSettle
  | .tail => P.tTail
  | .power => P.tPower
  | .blink => P.tBlink
  | .bootOn => P.tBootOn
  | .bootOff => P.tBootOff

/-- Whether `v` is in the range of a volume register: always for the unbounded integer (R9); for a
finite VOL_W of `w` bits, from -2^(w-1) to 2^(w-1) - 1 (60_exceptions.md R224; DESIGN CHOICE, log
entry 8: the spec does not say how the register codes negative volumes). -/
def volumeInRange (volW : Option Nat) (v : Int) : Bool :=
  match volW with
  | none => true
  | some w => decide (-(2 ^ w : Int) ≤ 2 * v) && decide (2 * v < (2 ^ w : Int))

end Sys2Proof.Machine
end

