-- ==== Sys2Proof/Machine/Flags.lean ====
section
/-! DEFINITION. The derived flags and views: `ready`, `muted`, `drv`, the pad level an observer finds, the
register views of `mode`, `lat` and `act` (10_state.md R36, R37, R41, R42), the fault the
block is in (60_exceptions.md R223), the pad waveform (00_scope.md R14). -/

namespace Sys2Proof.Machine

/-- `ready = (seq == IDLE)` (10_state.md R37). -/
def ready (s : State) : Bool := decide (s.seq = .idle)

/-- The fault of a block in the state FAULT (60_exceptions.md R223): what a model reports of a run that
has reached it. -/
def faulted (s : State) : Option Fault :=
  match s.seq with
  | .fault r => some r
  | .boot _ => none
  | .idle => none
  | .busy _ _ => none

/-- `muted = (vol == 0) and (old > 0)` (R36). No rule reads it. -/
def muted (s : State) : Bool := decide (s.vol = 0) && decide (s.old > 0)

/-- What a line with mode `m` and latch `b` presents on its pad (R42). -/
def driveOf (m : Mode) (b : Level) : DriveValue :=
  match m with
  | .output => .driven b
  | .input => .z

/-- The pad drive function `drv[L]` (R42). -/
def drv (s : State) (l : Line) : DriveValue := driveOf (get s.mode l) (get s.lat l)

/-- The level on the pad of `l` for an observer, when the environment drives it with `e` (R42;
70_reset_and_hazards.md R256). Where both drive it or neither does, the spec leaves the level open
(log entry 9). Nothing in the block reads it. -/
def padLevel (s : State) (l : Line) (e : DriveValue) : SenseLevel :=
  match drv s l, e with
  | .driven b, .z => .valid b
  | .z, .driven b => .valid b
  | .driven _, .driven _ => Config.contended l s.now s.history
  | .z, .z => Config.contended l s.now s.history

/-- IN as 0, OUT as 1 (R38, 30_encoding.md R90). -/
def modeBit : Mode → Bool
  | .input => false
  | .output => true

/-- A Level as a bit. -/
def levelBit : Level → Bool
  | .low => false
  | .high => true

/-- Three bits: bit 0 = VDOWN, bit 1 = VUP, bit 2 = PWR (R41). -/
def lineBits (vdown vup pwr : Bool) : BitVec 3 :=
  BitVec.ofBool pwr ++ BitVec.ofBool vup ++ BitVec.ofBool vdown

/-- The register view of `mode` (R41). -/
def modeBits (s : State) : BitVec 3 :=
  lineBits (modeBit s.mode.vdown) (modeBit s.mode.vup) (modeBit s.mode.pwr)

/-- The register view of `lat` (R41). -/
def latBits (s : State) : BitVec 3 :=
  lineBits (levelBit s.lat.vdown) (levelBit s.lat.vup) (levelBit s.lat.pwr)

/-- The register view of `act` (R41). -/
def actBit (s : State) : BitVec 1 := BitVec.ofBool (levelBit s.act)

/-- The mode and latch of line `l` after one more event (00_scope.md R14). -/
def padEvent (l : Line) (ml : Mode × Level) (e : Event) : Mode × Level :=
  match e with
  | .mode l' m => if l' = l then (m, ml.2) else ml
  | .latch l' b => if l' = l then (ml.1, b) else ml
  | .accept _ _ _ => ml
  | .sample _ _ => ml
  | .act _ => ml
  | .log _ => ml
  | .done _ => ml

/-- The mode and latch of line `l` after the events of a history, from `ml`. -/
def padReplay (l : Line) (ml : Mode × Level) (h : History) : Mode × Level :=
  h.foldl (fun x te => padEvent l x te.2) ml

/-- The pad waveform (00_scope.md R14): what the block presents on line `l` at time `t`, evaluated after
every event with timestamp `t` or earlier, from the mode and latch `ml` before the history. -/
def padAt (l : Line) (ml : Mode × Level) (h : History) (t : Nat) : DriveValue :=
  let x := padReplay l ml (h.filter fun te => decide (te.1 ≤ t))
  driveOf x.1 x.2

end Sys2Proof.Machine
end

