-- ==== Sys2Proof/Machine/Ops.lean ====
section
/-! DEFINITION. The shared operations: the events, the line primitives and their two-line forms
(40_line_primitives.md), the entry of FAULT, the end of a command by a result (the block's exception
entry), acceptance, reset, and the host's tape. -/

namespace Sys2Proof.Machine

/-- The three outcomes, over this machine's types. -/
abbrev Out := Host.Outcome State Fault Refusal

/-- `o`, then `f` of its next state. -/
def andThen (o : Out) (f : State → Out) : Out :=
  match o with
  | .next s => f s
  | .fault r => .fault r
  | .refused r => .refused r

/-- EMIT(e): append `e` to the history at `now`, and nothing else (R107). -/
def emit (e : Event) (s : State) : State := { s with history := s.history ++ [(s.now, e)] }

/-- SET_MODE(L, IN) (R101): no precondition; the latch keeps its value. -/
def setModeIn (l : Line) (s : State) : State :=
  emit (.mode l .input) { s with mode := set s.mode l .input }

/-- SET_MODE(L, OUT, init) (R102): the latch and the mode change at one instant. -/
def setModeOut (l : Line) (b : Level) (s : State) : State :=
  emit (.mode l .output) (emit (.latch l b) { s with lat := set s.lat l b, mode := set s.mode l .output })

/-- The environment's answer to a READ of line `l` now (R103, R110): the next one of the tape, or a
free value (log entry 2). -/
def answer (s : State) (l : Line) : SenseLevel :=
  match s.env with
  | a :: _ => a
  | [] => Config.envSense l s.now s.history

/-- READ(L) of a line in input mode (R103): takes the answer and records it; no block state changes. -/
def sense (l : Line) (s : State) : State :=
  emit (.sample l (answer s l)) { s with sensed := set s.sensed l (answer s l), env := s.env.tail }

/-- Entering the state FAULT (60_exceptions.md R223, R224): whatever runs stops there, without a DONE and
with nothing else written. Only a reset leaves it. -/
def enterFault (r : Fault) (s : State) : State := { s with seq := .fault r }

/-- READ(L) (R103): a LineModeViolation unless the line is in input mode. -/
def readLine (l : Line) (s : State) : State :=
  match get s.mode l with
  | .input => sense l s
  | .output => enterFault (.lineModeViolation .read l) s

/-- WRITE(L, b) of a line in output mode (R104). -/
def drive (l : Line) (b : Level) (s : State) : State :=
  emit (.latch l b) { s with lat := set s.lat l b }

/-- WRITE(L, b) (R104): a LineModeViolation unless the line is in output mode. -/
def writeLine (l : Line) (b : Level) (s : State) : State :=
  match get s.mode l with
  | .output => drive l b s
  | .input => enterFault (.lineModeViolation .write l) s

/-- WAIT(t) (R105): block time advances by exactly t; no event. -/
def wait (t : Nat) (s : State) : State := { s with now := s.now + t }

/-- SET_ACT(b) (R106). -/
def setAct (b : Level) (s : State) : State := emit (.act b) { s with act := b }

/-- READ2 (R113): a violation on VDOWN leaves VUP alone, for no primitive is issued in FAULT (R223). -/
def readPair (s : State) : State :=
  match s.mode.vdown with
  | .input => readLine .vup (sense .vdown s)
  | .output => enterFault (.lineModeViolation .read .vdown) s

/-- WRITE2 (R113), likewise. -/
def writePair (a b : Level) (s : State) : State :=
  match s.mode.vdown with
  | .output => writeLine .vup b (drive .vdown a s)
  | .input => enterFault (.lineModeViolation .write .vdown) s

/-- The two-line forms (R113): VDOWN before VUP, at one instant. -/
def pairOp (op : PairOp) (s : State) : State :=
  match op with
  | .setModeIn => setModeIn .vup (setModeIn .vdown s)
  | .setModeOut a b => setModeOut .vup b (setModeOut .vdown a s)
  | .read => readPair s
  | .write a b => writePair a b s

/-- The end of the running command by a result: EMIT DONE(r); seq <- IDLE (41_dispatch.md R136). With
PROTOCOL_ERROR it is what `raise ProtocolError` does (60_exceptions.md R228): nothing is saved, there
is no vector, control goes back to IDLE. There is no return operation (R229). -/
def endCommand (r : Result) (s : State) : State := { emit (.done r) s with seq := .idle }

/-- `vol <- vol + d` (42_quadrature.md R155): exact, no clamp; outside a finite VOL_W it is the fault
VolumeOverflow and never wraps (60_exceptions.md R224). -/
def addVolume (s : State) : State :=
  if volumeInRange s.params.volW (s.vol + dirInt s.d) then { s with vol := s.vol + dirInt s.d }
  else enterFault .volumeOverflow s

/-- How many STEPs a MUTE runs that starts now (43_mute.md R180 to R184). -/
def muteSteps (s : State) : Nat :=
  if s.vol > 0 then s.vol.toNat
  else if s.vol = 0 then (max s.old 0).toNat
  else
    match s.params.muteOnNegative with
    | .unmute => (max s.old 0).toNat
    | .noop => 0

/-- The direction of the STEPs of a MUTE that starts now (R180). -/
def muteDirection (s : State) : Direction := if s.vol > 0 then .minus else .plus

/-- The assignments of MUTE's branch before its loop (R180): the mute branch writes `old` and `n`, an
unmute writes `n`, and at a negative volume under NOOP nothing is written (R184). -/
def muteBranch (s : State) : State :=
  if s.vol > 0 then { s with old := s.vol, n := muteSteps s }
  else if s.vol = 0 then { s with n := muteSteps s }
  else
    match s.params.muteOnNegative with
    | .unmute => { s with n := muteSteps s }
    | .noop => s

/-- The first position of a command (41_dispatch.md R133, R134). -/
def startPos : Cmd → Pos
  | .volumeUp => .pulse 0
  | .volumeDown => .pulse 0
  | .mute => .pulse 0
  | .power => .pulse 0
  | .unrecognized => .log

/-- Acceptance of a word (41_dispatch.md R130): `cmd` is latched, ACCEPT is emitted and `seq` becomes
BUSY(decode(code), start), so that `ready` drops. -/
def accept (w : CmdWord) (s : State) : State :=
  { emit (.accept w.code w.address w.control) { s with cmd := w } with
    seq := .busy (decodeCode w.code) (startPos (decodeCode w.code)) }

/-- Reset (70_reset_and_hazards.md R250), from any state: every element at its reset value; no DONE. What is
outside the block stays: the parameters and what remains of the two tapes. -/
def resetBlock (s : State) : State :=
  { State.resetOf s.params with env := s.env, host := s.host }

/-- Whether the host drives reset in this cycle. -/
def resetDriven : List HostMove → Bool
  | .reset :: _ => true
  | .nothing :: _ => false
  | .offer _ :: _ => false
  | .hold _ :: _ => false
  | [] => false

/-- The word the host presents in this cycle. -/
def presented : List HostMove → Option CmdWord
  | .offer w :: _ => some w
  | .hold w :: _ => some w
  | .nothing :: _ => none
  | .reset :: _ => none
  | [] => none

/-- The tape after a cycle in which the block accepts no word (41_dispatch.md R131): an offered word is
dropped, a held word stays presented. -/
def hostWhileBusy : List HostMove → List HostMove
  | .hold w :: rest => .hold w :: rest
  | .offer _ :: rest => rest
  | .nothing :: rest => rest
  | .reset :: rest => rest
  | [] => []

/-- The tape after `k` such cycles. -/
def hostAfter : Nat → List HostMove → List HostMove
  | 0, h => h
  | k + 1, h => hostAfter k (hostWhileBusy h)

/-- No reset is driven in the next `k` cycles in which the block accepts no word. -/
def noResetFor : Nat → List HostMove → Bool
  | 0, _ => true
  | k + 1, h => !resetDriven h && noResetFor k (hostWhileBusy h)

end Sys2Proof.Machine
end

