-- ==== Sys2Proof/Machine/Primitives.lean ====
section
/-! DEFINITION. The meanings of the line primitives and of RESOLVE (40_line_primitives.md R101 to R107,
R113; 42_quadrature.md R151). They leave `seq` to the sequencer, but for an outcome that RESOLVE raises. -/

namespace Sys2Proof.Machine

/-- SET_MODE(L, IN) (R101). -/
def execSetModeIn (l : Line) (s : State) : Out := .next (setModeIn l s)

/-- SET_MODE(L, OUT, init) (R102). -/
def execSetModeOut (l : Line) (init : Level) (s : State) : Out := .next (setModeOut l init s)

/-- READ(L) (R103). -/
def execRead (l : Line) (s : State) : Out := .next (readLine l s)

/-- WRITE(L, b) (R104). -/
def execWrite (l : Line) (b : Level) (s : State) : Out := .next (writeLine l b s)

/-- WAIT(t) (R105). -/
def execWait (t : Nat) (s : State) : Out := .next (wait t s)

/-- SET_ACT(b) (R106). -/
def execSetAct (b : Level) (s : State) : Out := .next (setAct b s)

/-- EMIT(e) (R107). -/
def execEmit (e : Event) (s : State) : Out := .next (emit e s)

/-- SET_MODE2, READ2, WRITE2 (R113). -/
def execPair (op : PairOp) (s : State) : Out := .next (pairOp op s)

/-- RESOLVE(sd, su) (R151): writes the local `p`; a pair with an INV component raises ProtocolError,
which ends the running command (60_exceptions.md R221, R228). -/
def execResolve (sd su : SenseLevel) (s : State) : Out :=
  match resolvePair sd su with
  | some p => .next { s with p := p }
  | none => .next (endCommand .protocolError s)

end Sys2Proof.Machine
end

