-- ==== Sys2Proof/Machine/Composite.lean ====
section
/-! DEFINITION. The fixed pseudocodes (20_memory.md R73) as lists of lines, the meaning of one line, and the
meanings of the composite internal operations: ACTIVITY_PULSE, STEP, PRESS_POWER, BOOT_SEQUENCE. The
sequencer (Sequencer.lean) goes through the same lists line by line. -/

namespace Sys2Proof.Machine

/-- A line of a pseudocode: a primitive with its operands named as the pseudocode names them, or an
assignment (`branch`, `addVolume`). -/
inductive Action
  | setAct (b : Level)
  | wait (t : Delay)
  | lineIn (l : Line)
  | lineOut (l : Line) (b : Level)
  | lineWrite (l : Line) (b : Level)
  /-- SET_MODE2(IN). -/
  | pairIn
  /-- (sd, su) <- READ2(). -/
  | pairRead
  /-- p <- RESOLVE(sd, su). -/
  | resolve
  /-- SET_MODE2(OUT, PH[p]). -/
  | pairOut
  /-- The loop body at offset `off`: WRITE2(PH[mod4(p + d*off)]). -/
  | drive (off : Fin 4)
  /-- vol <- vol + d. -/
  | addVolume
  /-- The assignments of MUTE's branch. -/
  | branch
  /-- EMIT LOG(cmd.code). -/
  | log
  /-- EMIT DONE(r). -/
  | done (r : Result)
deriving DecidableEq, Repr

/-- The effect of one line. -/
def runAction (a : Action) (s : State) : Out :=
  match a with
  | .setAct b => execSetAct b s
  | .wait t => execWait (delayMs s.params t) s
  | .lineIn l => execSetModeIn l s
  | .lineOut l b => execSetModeOut l b s
  | .lineWrite l b => execWrite l b s
  | .pairIn => execPair .setModeIn s
  | .pairRead => execPair .read s
  | .resolve => execResolve s.sensed.vdown s.sensed.vup s
  | .pairOut => execPair (.setModeOut (phasePair s.p).1 (phasePair s.p).2) s
  | .drive off =>
    execPair (.write (phasePair (drivePhase s.p s.d off)).1 (phasePair (drivePhase s.p s.d off)).2)
      { s with off := off }
  | .addVolume => .next (addVolume s)
  | .branch => .next (muteBranch s)
  | .log => execEmit (.log s.cmd.code) s
  | .done r => execEmit (.done r) s

/-- Whether the line raises an outcome or a fault in this state, and so is the last one of the command
(60_exceptions.md R223, R224, R228). -/
def raises (a : Action) (s : State) : Bool :=
  match a with
  | .resolve => (resolvePair s.sensed.vdown s.sensed.vup).isNone
  | .setAct _ => false
  | .wait _ => false
  | .lineIn _ => false
  | .lineOut _ _ => false
  | .lineWrite l _ => decide (get s.mode l = .input)
  | .pairIn => false
  | .pairRead => decide (s.mode.vdown = .output) || decide (s.mode.vup = .output)
  | .pairOut => false
  | .drive _ => decide (s.mode.vdown = .input) || decide (s.mode.vup = .input)
  | .addVolume => !volumeInRange s.params.volW (s.vol + dirInt s.d)
  | .branch => false
  | .log => false
  | .done _ => false

/-- The lines in order, up to a line that raises an outcome or a fault (20_memory.md R67). -/
def runCode : List Action → State → Out
  | [], s => .next s
  | a :: rest, s =>
    match runAction a s with
    | .next s' => if raises a s then .next s' else runCode rest s'
    | .fault r => .fault r
    | .refused r => .refused r

/-- The activity pulse (41_dispatch.md R134). -/
def pulseCode : List Action := [.setAct .high, .wait .blink, .setAct .low]

/-- STEP(d) (42_quadrature.md R152), its loop `for off in 0, 1, 2, 3` written out. -/
def stepCode : List Action :=
  [.pairIn, .pairRead, .resolve, .pairOut,
   .drive 0, .wait .settle, .drive 1, .wait .settle, .drive 2, .wait .settle, .drive 3,
   .wait .tail, .pairIn, .addVolume]

/-- PRESS_POWER (44_power.md R201). -/
def powerCode : List Action :=
  [.lineOut .pwr .low, .wait .power, .lineWrite .pwr .high, .lineIn .pwr]

/-- The boot sequence (70_reset_and_hazards.md R251). -/
def bootCode : List Action :=
  [.setAct .high, .wait .bootOn, .setAct .low, .wait .bootOff,
   .setAct .high, .wait .bootOn, .setAct .low, .wait .bootOff]

/-- ACTIVITY_PULSE (R134). -/
def execActivityPulse (s : State) : Out := runCode pulseCode s

/-- STEP(d) (R152 to R156). -/
def execStep (d : Direction) (s : State) : Out := runCode stepCode { s with d := d }

/-- PRESS_POWER (R201, R202). -/
def execPressPower (s : State) : Out := runCode powerCode s

/-- BOOT_SEQUENCE (R251): the two blinks, then IDLE. -/
def execBootSequence (s : State) : Out :=
  andThen (runCode bootCode s) fun s' => .next { s' with seq := .idle }

end Sys2Proof.Machine
end

