-- ==== Sys2Proof/Machine/Sequencer.lean ====
section
/-! DEFINITION. The sequencer (10_state.md R35): the line at each position, what follows it, one cycle, and
the run of a command until the block is no longer busy. -/

namespace Sys2Proof.Machine

/-- The result with which a command ends normally (41_dispatch.md R133, R136). -/
def normalResult : Cmd → Result
  | .volumeUp => .ok
  | .volumeDown => .ok
  | .mute => .ok
  | .power => .ok
  | .unrecognized => .unrecognized

/-- The line at a position of command `c`'s pseudocode. -/
def actionAt (c : Cmd) (k : Pos) : Action :=
  match k with
  | .log => .log
  | .pulse j => pulseCode.get j
  | .branch => .branch
  | .step j => stepCode.get j
  | .power j => powerCode.get j
  | .done => .done (normalResult c)

/-- The body of a recognized command starts, at the instant of SET_ACT(0) (41_dispatch.md R134, R135). -/
def startBody (c : Cmd) (s : State) : State :=
  match c with
  | .volumeUp => { s with d := .plus, seq := .busy c (.step 0) }
  | .volumeDown => { s with d := .minus, seq := .busy c (.step 0) }
  | .mute => { s with seq := .busy c .branch }
  | .power => { s with seq := .busy c (.power 0) }
  | .unrecognized => { s with seq := .busy c .done }

/-- MUTE's loop begins, or is empty (43_mute.md R180, R181). -/
def startLoop (c : Cmd) (s : State) : State :=
  if muteSteps s = 0 then { s with seq := .busy c .done }
  else { s with d := muteDirection s, i := 1, seq := .busy c (.step 0) }

/-- After a completed STEP: the next one of MUTE's loop, or the end of the body. -/
def afterStep (c : Cmd) (s : State) : State :=
  match c with
  | .mute =>
    if s.i < s.n then { s with i := s.i + 1, seq := .busy c (.step 0) }
    else { s with seq := .busy c .done }
  | .volumeUp => { s with seq := .busy c .done }
  | .volumeDown => { s with seq := .busy c .done }
  | .power => { s with seq := .busy c .done }
  | .unrecognized => { s with seq := .busy c .done }

/-- `seq` (and the loop variables) after the line at position `k` of command `c` has taken effect. -/
def advance (c : Cmd) (k : Pos) (s : State) : State :=
  match k with
  | .log => { s with seq := .busy c .done }
  | .pulse j => if h : j.val + 1 < 3 then { s with seq := .busy c (.pulse ⟨j.val + 1, h⟩) } else startBody c s
  | .branch => startLoop c s
  | .step j => if h : j.val + 1 < 14 then { s with seq := .busy c (.step ⟨j.val + 1, h⟩) } else afterStep c s
  | .power j =>
    if h : j.val + 1 < 4 then { s with seq := .busy c (.power ⟨j.val + 1, h⟩) }
    else { s with seq := .busy c .done }
  | .done => { s with seq := .idle }

/-- `seq` after line `k` of the boot sequence (70_reset_and_hazards.md R251). -/
def advanceBoot (k : Fin 8) (s : State) : State :=
  if h : k.val + 1 < 8 then { s with seq := .boot ⟨k.val + 1, h⟩ } else { s with seq := .idle }

/-- One line of the running pseudocode; an outcome or fault that it raises has ended the command. In
FAULT no line is run (60_exceptions.md R223). -/
def tick (s : State) : Out :=
  match s.seq with
  | .idle => .next s
  | .fault _ => .next s
  | .boot k => andThen (runAction (bootCode.get k) s) fun s' => .next (advanceBoot k s')
  | .busy c k =>
    andThen (runAction (actionAt c k) s) fun s' =>
      .next (if raises (actionAt c k) s then s' else advance c k s')

/-- The fault that the outcome of a run is: the block is in FAULT and the host has no more moves, so that
no reset will come (60_exceptions.md R223; log entry 5). -/
def finalFault (s : State) : Option Fault :=
  match s.host with
  | [] => faulted s
  | _ :: _ => none

/-- One cycle of a block that is not idle: the host's move is taken, a reset before anything else, also in
FAULT (70_reset_and_hazards.md R250); a presented word has no effect (41_dispatch.md R131). -/
def cycle (s : State) : Out :=
  if resetDriven s.host then .next (resetBlock { s with host := s.host.tail })
  else
    match finalFault s with
    | some r => .fault r
    | none => tick { s with host := hostWhileBusy s.host }

/-- Whether a command is running. -/
def busy : Seq → Bool
  | .busy _ _ => true
  | .boot _ => false
  | .idle => false
  | .fault _ => false

/-- At most `k` cycles, as long as a command runs. -/
def runBusy : Nat → State → Out
  | 0, s => .next s
  | k + 1, s => if busy s.seq then andThen (cycle s) (runBusy k) else .next s

/-- How many cycles a command takes from its start to its DONE, if nothing is raised. -/
def commandCycles (c : Cmd) (s : State) : Nat :=
  match c with
  | .volumeUp => pulseCode.length + stepCode.length + 1
  | .volumeDown => pulseCode.length + stepCode.length + 1
  | .mute => pulseCode.length + 1 + stepCode.length * muteSteps s + 1
  | .power => pulseCode.length + powerCode.length + 1
  | .unrecognized => 2

/-- Command `c`, from its first line until the block is no longer busy with it: it has ended by its
DONE, by a fault, or by a reset. Nothing else cancels it (41_dispatch.md R132). -/
def runCommand (c : Cmd) (s : State) : Out :=
  runBusy (commandCycles c s) { s with seq := .busy c (startPos c) }

/-- The instruction that a line is, with its operands read from the state; an assignment is none. -/
def actionInstr (a : Action) (s : State) : Option Instr :=
  match a with
  | .setAct b => some (.setAct b)
  | .wait t => some (.wait (delayMs s.params t))
  | .lineIn l => some (.setModeIn l)
  | .lineOut l b => some (.setModeOut l b)
  | .lineWrite l b => some (.write l b)
  | .pairIn => some (.pair .setModeIn)
  | .pairRead => some (.pair .read)
  | .resolve => some (.resolve s.sensed.vdown s.sensed.vup)
  | .pairOut => some (.pair (.setModeOut (phasePair s.p).1 (phasePair s.p).2))
  | .drive off =>
    some (.pair (.write (phasePair (drivePhase s.p s.d off)).1 (phasePair (drivePhase s.p s.d off)).2))
  | .addVolume => none
  | .branch => none
  | .log => some (.emit (.log s.cmd.code))
  | .done r => some (.emit (.done r))

/-- The loop variable a line binds before its primitive: `off` of a phase drive. -/
def actionPrepare (a : Action) (s : State) : State :=
  match a with
  | .drive off => { s with off := off }
  | .setAct _ => s
  | .wait _ => s
  | .lineIn _ => s
  | .lineOut _ _ => s
  | .lineWrite _ _ => s
  | .pairIn => s
  | .pairRead => s
  | .resolve => s
  | .pairOut => s
  | .addVolume => s
  | .branch => s
  | .log => s
  | .done _ => s

end Sys2Proof.Machine
end

