-- ==== Sys2Proof/Machine/Commands.lean ====
section
/-! DEFINITION. The meanings of the five instructions of the command port: the frame of 41_dispatch.md
R136 with each command's body. Acceptance (R130) comes before them, in the step. -/

namespace Sys2Proof.Machine

/-- VOLUME_UP (42_quadrature.md R157): the frame with BODY = STEP(+1). -/
def execVolumeUp (s : State) : Out := runCommand .volumeUp s

/-- VOLUME_DOWN (42_quadrature.md R158): the frame with BODY = STEP(-1). -/
def execVolumeDown (s : State) : Out := runCommand .volumeDown s

/-- MUTE (43_mute.md R180): the frame with the mute/unmute toggle. -/
def execMute (s : State) : Out := runCommand .mute s

/-- POWER (44_power.md R200): the frame with BODY = PRESS_POWER. -/
def execPower (s : State) : Out := runCommand .power s

/-- UNRECOGNIZED (41_dispatch.md R133): LOG(cmd.code), DONE(UNRECOGNIZED). The operand is `cmd.code`: it
stands in the latch while the command runs. -/
def execUnrecognized (code : Nat) (s : State) : Out :=
  runCommand .unrecognized { s with cmd := { s.cmd with code := code } }

end Sys2Proof.Machine
end

