-- ==== Sys2Proof/Machine/Dispatch.lean ====
section
/-! DEFINITION. One arm for each instruction. -/

namespace Sys2Proof.Machine

def exec (i : Instr) (s : State) : Host.Outcome State Fault Refusal :=
  match i with
  | .volumeUp => Sys2Proof.Machine.execVolumeUp s
  | .volumeDown => Sys2Proof.Machine.execVolumeDown s
  | .mute => Sys2Proof.Machine.execMute s
  | .power => Sys2Proof.Machine.execPower s
  | .unrecognized code => Sys2Proof.Machine.execUnrecognized code s
  | .setModeIn l => Sys2Proof.Machine.execSetModeIn l s
  | .setModeOut l init => Sys2Proof.Machine.execSetModeOut l init s
  | .read l => Sys2Proof.Machine.execRead l s
  | .write l b => Sys2Proof.Machine.execWrite l b s
  | .wait t => Sys2Proof.Machine.execWait t s
  | .setAct b => Sys2Proof.Machine.execSetAct b s
  | .emit e => Sys2Proof.Machine.execEmit e s
  | .pair op => Sys2Proof.Machine.execPair op s
  | .activityPulse => Sys2Proof.Machine.execActivityPulse s
  | .resolve sd su => Sys2Proof.Machine.execResolve sd su s
  | .step d => Sys2Proof.Machine.execStep d s
  | .pressPower => Sys2Proof.Machine.execPressPower s
  | .bootSequence => Sys2Proof.Machine.execBootSequence s

end Sys2Proof.Machine
end

