-- ==== Sys2Proof/Machine/Step.lean ====
section
/-! DEFINITION. One step of the machine, and the placing of an instruction where the step takes its
next one: at the command port of an idle block. -/

namespace Sys2Proof.Machine

/-- One step (log entry 3). A driven reset takes effect in any state (70_reset_and_hazards.md R250). An idle
block accepts the word the host presents (41_dispatch.md R130) and runs its instruction; with no word
presented it stays as it is. A block that boots, or is inside a command, does one line (10_state.md R35).
A block in FAULT waits for a reset, and once the host has no more moves the outcome is the fault (60_exceptions.md R223). -/
def step (s : State) : Host.Outcome State Fault Refusal :=
  if resetDriven s.host then .next (resetBlock { s with host := s.host.tail })
  else
    match s.seq with
    | .idle =>
      match presented s.host with
      | some w => exec (decode w) (accept w { s with host := s.host.tail })
      | none => .next { s with host := s.host.tail }
    | .boot _ => cycle s
    | .busy _ _ => cycle s
    | .fault _ => cycle s

/-- `s` with the block idle and the word of a table row presented in the next cycle: the next step
accepts and runs exactly it (log entry 11). -/
def State.withFetchWord (s : State) (nbits w : Nat) : State :=
  { s with seq := .idle, host := .offer (wordOfTable nbits w) :: s.host }

end Sys2Proof.Machine
end

