-- ==== Sys2Proof/Safety.lean ====
section
/-! DEFINITION. What claims say of runs: the safe states (10_state.md R48, R49; 60_exceptions.md R235), the
ordered history (20_memory.md R67), one DONE for each accepted word (41_dispatch.md R136), and the premise
QUIET_ENV (40_line_primitives.md R111). -/

namespace Sys2Proof.Safety

open Sys2Proof.Machine

/-- The state of a STEP after its read-back: SET_MODE2(IN), READ2 (42_quadrature.md R152). -/
def readBack (s : State) : State :=
  sense .vup (sense .vdown (setModeIn .vup (setModeIn .vdown s)))

/-- The phase that a STEP which starts in this state resolves; none if it raises ProtocolError (R151). -/
def readPhase (s : State) : Option Phase :=
  resolvePair (readBack s).sensed.vdown (readBack s).sensed.vup

/-- The two LATCH events of the drive of a pair. -/
def driveEvents (t : Nat) (ab : Level × Level) : History :=
  [(t, .latch .vdown ab.1), (t, .latch .vup ab.2)]

/-- The events of a STEP that resolved phase `p` at time `t`, after its SAMPLE events (R152, R153, R160):
the switch to OUT at PH[p], the four phase drives T_SETTLE apart, and the release T_TAIL later. -/
def stepEvents (P : Params) (p : Phase) (d : Direction) (t : Nat) : History :=
  [(t, .latch .vdown (phasePair p).1), (t, .mode .vdown .output),
   (t, .latch .vup (phasePair p).2), (t, .mode .vup .output)] ++
  driveEvents t (phasePair (mod4 (p.val + dirInt d * 0))) ++
  driveEvents (t + P.tSettle) (phasePair (mod4 (p.val + dirInt d * 1))) ++
  driveEvents (t + 2 * P.tSettle) (phasePair (mod4 (p.val + dirInt d * 2))) ++
  driveEvents (t + 3 * P.tSettle) (phasePair (mod4 (p.val + dirInt d * 3))) ++
  [(t + 3 * P.tSettle + P.tTail, .mode .vdown .input), (t + 3 * P.tSettle + P.tTail, .mode .vup .input)]

/-- The state a completed STEP ends in, from the state `r` after its read-back of phase `p` (R152,
R154, R155, R160). -/
def stepEnd (d : Direction) (p : Phase) (r : State) : State :=
  { r with
    vol := r.vol + dirInt d
    mode := { r.mode with vdown := .input, vup := .input }
    lat := { r.lat with
      vdown := (phasePair (mod4 (p.val + dirInt d * 3))).1
      vup := (phasePair (mod4 (p.val + dirInt d * 3))).2 }
    p := p
    d := d
    off := 3
    now := r.now + 3 * r.params.tSettle + r.params.tTail
    history := r.history ++ stepEvents r.params p d r.now }

/-- How a sequence of STEPs ends. -/
inductive StepsEnd
  /-- Every one completed. -/
  | completed (t : State)
  /-- One did not resolve; `t` is the state after its read-back. -/
  | aborted (t : State)
  /-- One would leave the range of a finite VOL_W (60_exceptions.md R224); `t` is the state after its
  release, before FAULT. -/
  | overflowed (t : State)
deriving DecidableEq, Repr

/-- `n` times STEP(d), one after another, up to one that raises ProtocolError (43_mute.md R180, R181,
R185). -/
def runSteps (d : Direction) : Nat → State → StepsEnd
  | 0, s => .completed s
  | n + 1, s =>
    match readPhase s with
    | none => .aborted { readBack s with d := d }
    | some p =>
      if volumeInRange s.params.volW (s.vol + dirInt d) then runSteps d n (stepEnd d p (readBack s))
      else .overflowed { stepEnd d p (readBack s) with vol := s.vol }

/-- The state after the activity pulse (41_dispatch.md R134). -/
def afterPulse (s : State) : State :=
  { s with
    act := .low
    now := s.now + s.params.tBlink
    history := s.history ++ [(s.now, .act .high), (s.now + s.params.tBlink, .act .low)] }

/-- The mode of line `l` before the line of code at position `q`: the volume pair is in output mode
from STEP's SET_MODE2(OUT) to its release, PWR inside PRESS_POWER, every line is released elsewhere. -/
def lineModeAt (q : Seq) (l : Line) : Mode :=
  match q, l with
  | .busy _ (.step k), .vdown => if 4 ≤ k.val ∧ k.val ≤ 12 then .output else .input
  | .busy _ (.step k), .vup => if 4 ≤ k.val ∧ k.val ≤ 12 then .output else .input
  | .busy _ (.power k), .pwr => if 1 ≤ k.val then .output else .input
  | _, _ => .input

/-- The level of ACT before the line of code at position `q`: on inside a pulse, off elsewhere. -/
def actAt (q : Seq) : Level :=
  match q with
  | .busy _ (.pulse k) => if 1 ≤ k.val then .high else .low
  | .boot k => if k.val % 4 = 1 ∨ k.val % 4 = 2 then .high else .low
  | _ => .low

/-- The history is in the order of time and holds nothing later than `now` (20_memory.md R67). -/
def orderedHistory (s : State) : Prop :=
  s.history.Pairwise (fun x y => x.1 ≤ y.1) ∧ ∀ x ∈ s.history, x.1 ≤ s.now

/-- Inside MUTE's loop the index runs from 1 to n (43_mute.md R180). -/
def loopIndexLegal (s : State) : Prop :=
  ∀ k, s.seq = .busy .mute (.step k) → 1 ≤ s.i ∧ s.i ≤ s.n

/-- The safe states. -/
structure Inv (s : State) : Prop where
  /-- 10_state.md R48. -/
  old_nonneg : 0 ≤ s.old
  /-- 10_state.md R49 at IDLE, 40_line_primitives.md R108 inside a command. -/
  modes : ∀ l, get s.mode l = lineModeAt s.seq l
  /-- 60_exceptions.md R235 at IDLE. -/
  act : s.act = actAt s.seq
  /-- 20_memory.md R67. -/
  ordered : orderedHistory s
  /-- 43_mute.md R180. -/
  loop : loopIndexLegal s
  /-- The only fault is VolumeOverflow, of a finite VOL_W (60_exceptions.md R223, R224). -/
  fault : ∀ r, s.seq = .fault r → r = .volumeOverflow ∧ s.params.volW ≠ none

/-- Whether an event is an ACCEPT. -/
def isAccept : Event → Bool
  | .accept _ _ _ => true
  | _ => false

/-- Whether an event is a DONE. -/
def isDone : Event → Bool
  | .done _ => true
  | _ => false

/-- Every accepted word has had its DONE, but for the one of a running command (41_dispatch.md R136) or of
one that a fault has ended (60_exceptions.md R227). -/
def doneForEachAccept (s : State) : Prop :=
  s.history.countP (fun x => isAccept x.2) =
    s.history.countP (fun x => isDone x.2) + (if busy s.seq || (faulted s).isSome then 1 else 0)

/-- The modes and latches are those that the history gives (00_scope.md R14), from released lines with
some latch value at reset. -/
def padsFollowHistory (s : State) : Prop :=
  ∀ l, ∃ b, padReplay l (.input, b) s.history = (get s.mode l, get s.lat l)

/-- The level line `l` was last driven to in a history, or its initial level if it never was
(40_line_primitives.md R111 (b): the latch at the release that followed the last period in OUT). -/
def lastDriven (e0 : PerLine Level) (l : Line) (h : History) : Level :=
  h.foldl (fun b te => match te.2 with
    | .latch l' b' => if l' = l then b' else b
    | _ => b) (get e0 l)

/-- QUIET_ENV (R111), as the history shows it: every READ returned the level its line was last driven
to. Part (a) of R111, that the environment drives no line in OUT, concerns no state of the block. -/
def quietHistory (e0 : PerLine Level) (h : History) : Prop :=
  ∀ before t l v after, h = before ++ (t, Event.sample l v) :: after →
    v = .valid (lastDriven e0 l before)

/-- No host move of the tape is a reset. -/
def noReset (h : List HostMove) : Prop := .reset ∉ h

end Sys2Proof.Safety
end

