-- ==== Sys2Proof/Certificates/Slice0/Obligations.lean ====
section
/-! DEFINITION. The statements about the block, for the provers. Each docstring names the rules of spec/
it formalises. `next` states are written out, so that a result statement is a frame statement too. -/

open Sys2Proof Sys2Proof.Machine Sys2Proof.Safety

/-! Encoding. -/

/-- 30_encoding.md R82, R83: the command map, by exact equality of the whole code. -/
def Obligations.CommandMapDecodes : Prop :=
  ∀ a k : Nat,
    decode { code := 18, address := a, control := k } = .volumeUp ∧
    decode { code := 19, address := a, control := k } = .volumeDown ∧
    decode { code := 20, address := a, control := k } = .mute ∧
    decode { code := 21, address := a, control := k } = .power ∧
    ∀ code : Nat, code ≠ 18 → code ≠ 19 → code ≠ 20 → code ≠ 21 →
      decode { code := code, address := a, control := k } = .unrecognized code

/-- R85: a code whose low five bits are a recognized code and whose higher bits are not all zero is
UNRECOGNIZED, and the ignored fields do not change the decoding. -/
def Obligations.CodesAreNotTruncated : Prop :=
  (∀ code a k : Nat, code / 32 ≠ 0 →
    decode { code := code, address := a, control := k } = .unrecognized code) ∧
  ∀ code a k a' k' : Nat, decode { code := code, address := a, control := k } =
    decode { code := code, address := a', control := k' }

/-- R81 to R83: for every well-formed command and every value of the two ignored fields, the word,
packed into one number and taken apart again, decodes to the command. The packing is the model's (log
entry 12). -/
def Obligations.PackedEncodingRoundTrip : Prop :=
  ∀ (P : Params) (i : Instr) (a k : Nat),
    P.legal = true → i.isCommand = true → i.wf P = true → a < 2 ^ P.addrW → k < 2 ^ P.ctrlW →
    ∃ w, encode i a k = some w ∧ w.fits P = true ∧ w.address = a ∧ w.control = k ∧
      unpackWord P (packWord P w) = w ∧ decode (unpackWord P (packWord P w)) = i

/-- R82, R84, R89: every word is the encoding of the command it decodes to, so that none is illegal; an
INTERNAL operation has no word, and no word decodes to one. -/
def Obligations.WordsAndCommandsCorrespond : Prop :=
  (∀ w : CmdWord, (decode w).isCommand = true ∧ encode (decode w) w.address w.control = some w) ∧
  ∀ i : Instr, i.isCommand = false →
    (∀ a k, encode i a k = none) ∧ ∀ w, decode w ≠ i

/-- R92: the result codes; code 3 is reserved. -/
def Obligations.ResultCodesOfDone : Prop :=
  resultCode .ok = 0 ∧ resultCode .unrecognized = 1 ∧ resultCode .protocolError = 2 ∧
  (∀ r, resultOfCode (resultCode r) = some r) ∧ resultOfCode 3 = none

/-- R87, R88: the phase table, its inverse, and its Gray-code adjacency. -/
def Obligations.PhaseTableAndInverse : Prop :=
  phasePair 0 = (.low, .low) ∧ phasePair 1 = (.high, .low) ∧
  phasePair 2 = (.high, .high) ∧ phasePair 3 = (.low, .high) ∧
  (∀ p, phaseIndex (phasePair p).1 (phasePair p).2 = p) ∧
  (∀ a b, phasePair (phaseIndex a b) = (a, b)) ∧
  ∀ p : Phase, ((phasePair p).1 = (phasePair (mod4 (p.val + 1))).1 ↔
    (phasePair p).2 ≠ (phasePair (mod4 (p.val + 1))).2)

/-- 00_scope.md R11, 42_quadrature.md R150: `mod4` is the Euclidean remainder; four advances by +1
return; -1 from phase 0 is phase 3. -/
def Obligations.PhaseArithmeticIsEuclidean : Prop :=
  (∀ x : Int, ∃ k : Int, x = 4 * k + (mod4 x).val) ∧
  (∀ p : Phase, mod4 ((mod4 ((mod4 ((mod4 (p.val + 1)).val + 1)).val + 1)).val + 1) = p) ∧
  mod4 (0 + -1) = 3

/-- 42_quadrature.md R153, R154, R159: the drive at offset 0 is the resolved phase, each later drive
differs from the one before in exactly one line, and the last phase is mod4(p - d). -/
def Obligations.DrivesChangeOneLineAtATime : Prop :=
  ∀ (p : Phase) (d : Direction),
    drivePhase p d 0 = p ∧ drivePhase p d 3 = mod4 (p.val - dirInt d) ∧
    ∀ k k' : Fin 4, k'.val = k.val + 1 →
      ((phasePair (drivePhase p d k)).1 = (phasePair (drivePhase p d k')).1 ↔
        (phasePair (drivePhase p d k)).2 ≠ (phasePair (drivePhase p d k')).2)

/-! Reset and boot. -/

/-- 10_state.md R46: the reset values the spec gives, for every block. -/
def Obligations.ResetValues : Prop :=
  State.reset = State.resetOf Config.params ∧
  ∀ P : Params,
    (State.resetOf P).vol = P.volInit ∧ (State.resetOf P).old = (P.oldInit : Int) ∧
    (∀ l, get (State.resetOf P).mode l = .input) ∧
    (State.resetOf P).act = .low ∧ (State.resetOf P).seq = .boot 0 ∧ (State.resetOf P).now = 0

/-- 70_reset_and_hazards.md R250, 60_exceptions.md R223: reset in any state, a fault state among them; a
running command gets no DONE. Nothing else leaves FAULT: without a reset the block is not ready and changes
nothing, and when the host has no more moves the outcome is the fault (log entry 5). The history starts
anew at a reset, and the tapes go on (log entries 2, 3 and 6). -/
def Obligations.ResetFromAnyState : Prop :=
  (∀ s : State, resetDriven s.host = true →
    ∃ t, step s = .next t ∧
      t.vol = s.params.volInit ∧ t.old = (s.params.oldInit : Int) ∧ (∀ l, get t.mode l = .input) ∧
      t.act = .low ∧ t.now = 0 ∧ t.seq = .boot 0 ∧
      (∀ x ∈ t.history, isDone x.2 = true → x ∈ s.history) ∧
      t.params = s.params ∧ t.env = s.env ∧ t.host = s.host.tail) ∧
  ∀ (s : State) (r : Fault), s.seq = .fault r → resetDriven s.host = false →
    ready s = false ∧ (s.host = [] → step s = .fault r) ∧
    (s.host ≠ [] → step s = .next { s with host := hostWhileBusy s.host })

/-- R250, inside a POWER: whichever of its cycles the reset arrives in, the command ends without a DONE
and the block boots. A command is one operation, and its resets come from the host's tape (log entry 3). -/
def Obligations.ResetInsidePowerEndsIt : Prop :=
  ∀ (s : State) (k : Nat) (rest : List HostMove), k < 8 →
    s.host = List.replicate k .nothing ++ .reset :: rest →
    ∃ t, exec .power s = .next t ∧ t.seq = .boot 0 ∧ (∀ l, get t.mode l = .input) ∧
      t.vol = s.params.volInit ∧ t.old = (s.params.oldInit : Int) ∧ t.act = .low ∧ t.now = 0 ∧
      (∀ x ∈ t.history, isDone x.2 = true → x ∈ s.history) ∧ t.env = s.env ∧ t.host = rest

/-- The safe states hold at reset, whatever the parameters (10_state.md R48, R49). The values of the
latches and the empty history are the model's (log entries 4 and 6). -/
def Obligations.ResetIsSafe : Prop :=
  Inv State.reset ∧ doneForEachAccept State.reset ∧ padsFollowHistory State.reset ∧
  ∀ P : Params, Inv (State.resetOf P) ∧ doneForEachAccept (State.resetOf P) ∧
    padsFollowHistory (State.resetOf P)

/-- 70_reset_and_hazards.md R251, R252: eight steps of boot, whatever words the host presents meanwhile;
the block is not ready before the last of them. The host's tape is the model's (log entry 3). -/
def Obligations.BootRunReachesIdle : Prop :=
  ∀ s : State, s.seq = .boot 0 → noResetFor 8 s.host = true →
    core.run 8 s = .next
      { s with
        act := .low
        seq := .idle
        now := s.now + 2 * (s.params.tBootOn + s.params.tBootOff)
        host := hostAfter 8 s.host
        history := s.history ++
          [(s.now, .act .high), (s.now + s.params.tBootOn, .act .low),
           (s.now + s.params.tBootOn + s.params.tBootOff, .act .high),
           (s.now + s.params.tBootOn + s.params.tBootOff + s.params.tBootOn, .act .low)] } ∧
    ∀ (k : Nat) (t : State), k < 8 → core.run k s = .next t → ready t = false

/-- R251: BOOT_SEQUENCE as one operation. -/
def Obligations.BootSequenceCompletes : Prop :=
  ∀ s : State, exec .bootSequence s = .next
    { s with
      act := .low
      seq := .idle
      now := s.now + 2 * (s.params.tBootOn + s.params.tBootOff)
      history := s.history ++
        [(s.now, .act .high), (s.now + s.params.tBootOn, .act .low),
         (s.now + s.params.tBootOn + s.params.tBootOff, .act .high),
         (s.now + s.params.tBootOn + s.params.tBootOff + s.params.tBootOn, .act .low)] }

/-! The step. -/

/-- 41_dispatch.md R130: an idle block accepts the presented word at that instant and runs the
instruction it decodes to, from the state acceptance leaves. That the whole command is one step is the
model's (log entry 3). -/
def Obligations.IdleStepAcceptsAndRuns : Prop :=
  ∀ (s : State) (w : CmdWord), s.seq = .idle → presented s.host = some w →
    step s = exec (decode w)
      { s with
        cmd := w
        seq := .busy (decodeCode w.code) (startPos (decodeCode w.code))
        history := s.history ++ [(s.now, .accept w.code w.address w.control)]
        host := s.host.tail }

/-- 60_exceptions.md R235: an idle block that is presented no word waits. That it takes no block time is
deduced (log entry 10). -/
def Obligations.IdleStepWaits : Prop :=
  ∀ s : State, s.seq = .idle → presented s.host = none → resetDriven s.host = false →
    step s = .next { s with host := s.host.tail }

/-- 10_state.md R35: a step inside a command runs the instruction at the sequencer's position, on the
state with its loop variable bound, and then moves the position on, unless an outcome ended the command.
The positions are the model's (log entries 3 and 13). -/
def Obligations.BusyStepRunsItsPrimitive : Prop :=
  ∀ (s : State) (c : Cmd) (k : Pos) (i : Instr), s.seq = .busy c k → resetDriven s.host = false →
    actionInstr (actionAt c k) s = some i →
    step s = andThen (exec i (actionPrepare (actionAt c k) { s with host := hostWhileBusy s.host }))
      fun t => .next (if raises (actionAt c k) s then t else advance c k t)

/-- R35: a step of the boot sequence runs the instruction at its position. The host's tape is the
model's (log entry 3). -/
def Obligations.BootStepRunsItsPrimitive : Prop :=
  ∀ (s : State) (k : Fin 8), s.seq = .boot k → resetDriven s.host = false →
    ∃ i, actionInstr (bootCode.get k) s = some i ∧
      step s = andThen (exec i { s with host := hostWhileBusy s.host }) fun t => .next (advanceBoot k t)

/-- 41_dispatch.md R131, R132: a command as one operation is the run of its steps: after some number of
them, and no fewer, the block is as `exec` leaves it. The grain of a step is the model's (log entry 3). -/
def Obligations.CommandIsTheRunOfItsSteps : Prop :=
  ∀ (s : State) (c : Cmd), s.seq = .busy c (startPos c) →
    ∃ k, k ≤ commandCycles c s ∧ core.run k s = exec (c.instr s.cmd.code) s ∧
      ∀ j t, j < k → core.run j s = .next t → busy t.seq = true

/-- R131, R137: what word the host presents to a block that is not idle has no effect on it: an offered
word is gone, a held word is still presented, and nothing else differs. The host's tape is the model's
(log entry 3). -/
def Obligations.WordsWhileBusyHaveNoEffect : Prop :=
  ∀ (s : State) (w : CmdWord) (rest : List HostMove), s.seq ≠ .idle →
    step { s with host := .offer w :: rest } = step { s with host := .nothing :: rest } ∧
    (∀ t, step { s with host := .hold w :: rest } = .next t → t.host = .hold w :: rest) ∧
    andThen (step { s with host := .hold w :: rest }) (fun t => .next { t with host := rest }) =
      andThen (step { s with host := .nothing :: rest }) (fun t => .next { t with host := rest })

/-- R131, R137: two hosts that drive no reset can make no difference to a command once it is accepted.
The host's tape is the model's (log entry 3). -/
def Obligations.HostCannotDisturbACommand : Prop :=
  ∀ (i : Instr) (s : State) (h h' : List HostMove), i.isCommand = true → noReset h → noReset h' →
    andThen (exec i { s with host := h }) (fun t => .next { t with host := [] }) =
      andThen (exec i { s with host := h' }) (fun t => .next { t with host := [] })

/-! Flags and views. -/

/-- 10_state.md R36, R37, R42: `muted`, `ready` and the pad drive function. -/
def Obligations.FlagsAndPadDrive : Prop :=
  ∀ s : State,
    (ready s = true ↔ s.seq = .idle) ∧ (muted s = true ↔ s.vol = 0 ∧ s.old > 0) ∧
    ∀ l, (get s.mode l = .output → drv s l = .driven (get s.lat l)) ∧
      (get s.mode l = .input → drv s l = .z)

/-- R41: the register views of `mode`, `lat` and `act`. -/
def Obligations.RegisterViews : Prop :=
  ∀ s : State,
    (modeBits s).getLsbD 0 = decide (s.mode.vdown = .output) ∧
    (modeBits s).getLsbD 1 = decide (s.mode.vup = .output) ∧
    (modeBits s).getLsbD 2 = decide (s.mode.pwr = .output) ∧
    (latBits s).getLsbD 0 = decide (s.lat.vdown = .high) ∧
    (latBits s).getLsbD 1 = decide (s.lat.vup = .high) ∧
    (latBits s).getLsbD 2 = decide (s.lat.pwr = .high) ∧
    (actBit s).getLsbD 0 = decide (s.act = .high) ∧
    ∀ P, modeBits (State.resetOf P) = 0 ∧ actBit (State.resetOf P) = 0

/-! The line primitives. -/

/-- 40_line_primitives.md R101, R112: SET_MODE(L, IN). -/
def Obligations.SetModeInReleases : Prop :=
  ∀ (l : Line) (s : State),
    ∃ t, exec (.setModeIn l) s = .next t ∧
      t = { s with mode := set s.mode l .input, history := s.history ++ [(s.now, .mode l .input)] } ∧
      drv t l = .z ∧ (∀ l', l' ≠ l → drv t l' = drv s l') ∧
      (get s.mode l = .input → t = { s with history := s.history ++ [(s.now, .mode l .input)] })

/-- R102: SET_MODE(L, OUT, init): the pad goes to `init` whatever the latch held. -/
def Obligations.SetModeOutDrives : Prop :=
  ∀ (l : Line) (init : Level) (s : State),
    ∃ t, exec (.setModeOut l init) s = .next t ∧
      t = { s with
        lat := set s.lat l init
        mode := set s.mode l .output
        history := s.history ++ [(s.now, .latch l init), (s.now, .mode l .output)] } ∧
      drv t l = .driven init ∧ ∀ l', l' ≠ l → drv t l' = drv s l'

/-- R103: READ(L) of a line in input mode takes the environment's answer, whatever it is, and changes no
block state; of a line in output mode the block enters FAULT(LineModeViolation, READ, L) (60_exceptions.md
R223). `sensed` and the tape of answers are the model's (log entries 2 and 7). -/
def Obligations.ReadSensesOrFaults : Prop :=
  ∀ (l : Line) (s : State),
    (get s.mode l = .input → exec (.read l) s = .next
      { s with
        sensed := set s.sensed l (answer s l)
        env := s.env.tail
        history := s.history ++ [(s.now, .sample l (answer s l))] }) ∧
    (get s.mode l = .output →
      exec (.read l) s = .next { s with seq := .fault (.lineModeViolation .read l) }) ∧
    ∀ a rest, s.env = a :: rest → answer s l = a

/-- R104: WRITE(L, b) of a line in output mode; of a line in input mode the block enters
FAULT(LineModeViolation, WRITE, L) (60_exceptions.md R223). -/
def Obligations.WriteDrivesOrFaults : Prop :=
  ∀ (l : Line) (b : Level) (s : State),
    (get s.mode l = .output →
      ∃ t, exec (.write l b) s = .next t ∧
        t = { s with lat := set s.lat l b, history := s.history ++ [(s.now, .latch l b)] } ∧
        drv t l = .driven b ∧ ∀ l', l' ≠ l → drv t l' = drv s l') ∧
    (get s.mode l = .input →
      exec (.write l b) s = .next { s with seq := .fault (.lineModeViolation .write l) })

/-- R105: WAIT(t) advances `now` by exactly t and does nothing else; WAIT(0) does nothing. -/
def Obligations.WaitAdvancesTimeOnly : Prop :=
  ∀ (t : Nat) (s : State),
    exec (.wait t) s = .next { s with now := s.now + t } ∧ exec (.wait 0) s = .next s

/-- R106: SET_ACT(b). -/
def Obligations.SetActSetsTheIndicator : Prop :=
  ∀ (b : Level) (s : State),
    exec (.setAct b) s = .next { s with act := b, history := s.history ++ [(s.now, .act b)] }

/-- R107: EMIT(e) appends to the history and changes nothing else. -/
def Obligations.EmitAppendsOnly : Prop :=
  ∀ (e : Event) (s : State), exec (.emit e) s = .next { s with history := s.history ++ [(s.now, e)] }

/-- R113: the two-line forms are the two one-line forms in the order VDOWN, VUP, in every state. A violation
on VDOWN is the whole effect: in FAULT no primitive is issued (60_exceptions.md R223). -/
def Obligations.PairFormsAreTwoPrimitives : Prop :=
  ∀ s : State,
    exec (.pair .setModeIn) s = andThen (exec (.setModeIn .vdown) s) (exec (.setModeIn .vup)) ∧
    (∀ a b, exec (.pair (.setModeOut a b)) s =
      andThen (exec (.setModeOut .vdown a) s) (exec (.setModeOut .vup b))) ∧
    (s.mode.vdown = .input →
      exec (.pair .read) s = andThen (exec (.read .vdown) s) (exec (.read .vup))) ∧
    (s.mode.vdown = .output → exec (.pair .read) s = exec (.read .vdown) s) ∧
    (∀ a b, s.mode.vdown = .output →
      exec (.pair (.write a b)) s = andThen (exec (.write .vdown a) s) (exec (.write .vup b))) ∧
    ∀ a b, s.mode.vdown = .input → exec (.pair (.write a b)) s = exec (.write .vdown a) s

/-- R113: where the two-line forms complete, at one instant, and with what events. `sensed` and the tape
of answers are the model's (log entries 2 and 7). -/
def Obligations.PairFormsComplete : Prop :=
  ∀ s : State,
    exec (.pair .setModeIn) s = .next
      { s with
        mode := { s.mode with vdown := .input, vup := .input }
        history := s.history ++ [(s.now, .mode .vdown .input), (s.now, .mode .vup .input)] } ∧
    (∀ a b, exec (.pair (.setModeOut a b)) s = .next
      { s with
        mode := { s.mode with vdown := .output, vup := .output }
        lat := { s.lat with vdown := a, vup := b }
        history := s.history ++ [(s.now, .latch .vdown a), (s.now, .mode .vdown .output),
          (s.now, .latch .vup b), (s.now, .mode .vup .output)] }) ∧
    (∀ a b, s.mode.vdown = .output → s.mode.vup = .output →
      exec (.pair (.write a b)) s = .next
        { s with
          lat := { s.lat with vdown := a, vup := b }
          history := s.history ++ [(s.now, .latch .vdown a), (s.now, .latch .vup b)] }) ∧
    (s.mode.vdown = .input → s.mode.vup = .input →
      ∃ sd su, exec (.pair .read) s = .next
        { s with
          sensed := { s.sensed with vdown := sd, vup := su }
          env := s.env.tail.tail
          history := s.history ++ [(s.now, .sample .vdown sd), (s.now, .sample .vup su)] } ∧
        ∀ a b rest, s.env = a :: b :: rest → sd = a ∧ su = b)

/-! The composite operations. -/

/-- 42_quadrature.md R151: RESOLVE of the four phases writes the local `p` and nothing else. -/
def Obligations.ResolveWritesThePhase : Prop :=
  ∀ s : State,
    exec (.resolve (.valid .low) (.valid .low)) s = .next { s with p := 0 } ∧
    exec (.resolve (.valid .high) (.valid .low)) s = .next { s with p := 1 } ∧
    exec (.resolve (.valid .high) (.valid .high)) s = .next { s with p := 2 } ∧
    exec (.resolve (.valid .low) (.valid .high)) s = .next { s with p := 3 }

/-- R151, 60_exceptions.md R221, R228: a pair with an INV component raises ProtocolError: DONE with
PROTOCOL_ERROR, IDLE, nothing saved, nothing else changed. -/
def Obligations.ResolveRaisesProtocolError : Prop :=
  ∀ (sd su : SenseLevel) (s : State), sd = .inv ∨ su = .inv →
    exec (.resolve sd su) s = .next
      { s with seq := .idle, history := s.history ++ [(s.now, .done .protocolError)] }

/-- 41_dispatch.md R134: the activity pulse. -/
def Obligations.ActivityPulseCompletes : Prop :=
  ∀ s : State, exec .activityPulse s = .next
    { s with
      act := .low
      now := s.now + s.params.tBlink
      history := s.history ++ [(s.now, .act .high), (s.now + s.params.tBlink, .act .low)] }

/-- 42_quadrature.md R152 to R155, R160: a STEP whose read-back (`readBack`: SET_MODE2(IN), READ2) is
phase `p`. `stepEnd` writes the end state out: the drives at PH[mod4(p + d*k)], T_SETTLE apart, the
release, `vol + d`, and every other field as the read-back left it. -/
def Obligations.StepDrivesFourPhases : Prop :=
  ∀ (d : Direction) (s : State) (p : Phase), readPhase s = some p →
    volumeInRange s.params.volW (s.vol + dirInt d) = true →
    exec (.step d) s = .next (stepEnd d p (readBack s))

/-- R152, 40_line_primitives.md R110: the read-back of a STEP completes in every state, and a STEP uses
the environment's next two answers, VDOWN's first. `sensed` and the tape of answers are the model's (log
entries 2 and 7). -/
def Obligations.ReadBackTakesTwoAnswers : Prop :=
  ∀ s : State,
    andThen (exec (.pair .setModeIn) s) (exec (.pair .read)) = .next (readBack s) ∧
    ∀ a b rest, s.env = a :: b :: rest →
      readPhase s = resolvePair a b ∧ (readBack s).env = rest ∧
      readBack s = { s with
        mode := { s.mode with vdown := .input, vup := .input }
        sensed := { s.sensed with vdown := a, vup := b }
        env := rest
        history := s.history ++ [(s.now, .mode .vdown .input), (s.now, .mode .vup .input),
          (s.now, .sample .vdown a), (s.now, .sample .vup b)] }

/-- R156, 60_exceptions.md R228: a STEP whose read-back is no phase: after the READ2 there is only the
outcome. No LATCH, no switch to OUT, `vol` unchanged, no time. That a STEP by itself ends with the frame's
DONE and IDLE, and that the answers come from a tape, is the model's (log entries 2 and 15). -/
def Obligations.StepWithoutAPhaseDrivesNothing : Prop :=
  ∀ (d : Direction) (s : State), readPhase s = none →
    ∃ t sd su, exec (.step d) s = .next t ∧ (sd = .inv ∨ su = .inv) ∧
      t.history = s.history ++ [(s.now, .mode .vdown .input), (s.now, .mode .vup .input),
        (s.now, .sample .vdown sd), (s.now, .sample .vup su), (s.now, .done .protocolError)] ∧
      t.vol = s.vol ∧ t.old = s.old ∧ t.now = s.now ∧ t.lat = s.lat ∧ t.act = s.act ∧
      t.mode = { s.mode with vdown := .input, vup := .input } ∧ t.seq = .idle ∧
      t.cmd = s.cmd ∧ t.p = s.p ∧ t.off = s.off ∧ t.n = s.n ∧ t.i = s.i ∧ t.params = s.params ∧
      t.host = s.host

/-- 60_exceptions.md R224: a finite VOL_W faults instead of wrapping: STEP and both volume commands have
released their lines, leave `vol` as it was, enter FAULT and emit no DONE. An unbounded volume never
overflows. The range of a finite VOL_W is the model's (log entry 8), and so are the tapes (log entries 2
and 3). -/
def Obligations.FiniteVolumeFaultsOnOverflow : Prop :=
  (∀ (d : Direction) (s : State) (p : Phase), readPhase s = some p →
    volumeInRange s.params.volW (s.vol + dirInt d) = false →
    exec (.step d) s = .next
      { stepEnd d p (readBack s) with vol := s.vol, seq := .fault .volumeOverflow }) ∧
  (∀ (s : State) (d : Direction) (i : Instr) (p : Phase),
    (d = .plus ∧ i = .volumeUp) ∨ (d = .minus ∧ i = .volumeDown) → noResetFor 17 s.host = true →
    readPhase (afterPulse s) = some p → volumeInRange s.params.volW (s.vol + dirInt d) = false →
    exec i s = .next
      { stepEnd d p (readBack (afterPulse s)) with
        vol := s.vol
        seq := .fault .volumeOverflow
        host := hostAfter 17 s.host }) ∧
  ∀ (i : Instr) (s t : State), s.params.volW = none → s.seq ≠ .fault .volumeOverflow →
    exec i s = .next t → t.seq ≠ .fault .volumeOverflow

/-- 44_power.md R201, R202: PRESS_POWER, from any mode of PWR; it touches neither VDOWN nor VUP (R204). -/
def Obligations.PressPowerPulses : Prop :=
  ∀ s : State, exec .pressPower s = .next
    { s with
      mode := { s.mode with pwr := .input }
      lat := { s.lat with pwr := .high }
      now := s.now + s.params.tPower
      history := s.history ++
        [(s.now, .latch .pwr .low), (s.now, .mode .pwr .output),
         (s.now + s.params.tPower, .latch .pwr .high), (s.now + s.params.tPower, .mode .pwr .input)] }

/-- R203: the pad of PWR during a PRESS_POWER from a released line: Z before, low for exactly T_POWER,
released from then on. -/
def Obligations.PowerPadWaveform : Prop :=
  ∀ s t : State, exec .pressPower s = .next t → s.mode.pwr = .input →
    ∃ new, t.history = s.history ++ new ∧
      ∀ u : Nat,
        (u < s.now → padAt .pwr (s.mode.pwr, s.lat.pwr) new u = .z) ∧
        (s.now ≤ u → u < s.now + s.params.tPower →
          padAt .pwr (s.mode.pwr, s.lat.pwr) new u = .driven .low) ∧
        (s.now + s.params.tPower ≤ u → padAt .pwr (s.mode.pwr, s.lat.pwr) new u = .z)

/-! The commands. -/

/-- 41_dispatch.md R133: UNRECOGNIZED. The host's tape is the model's (log entry 3). -/
def Obligations.UnrecognizedLogsAndEnds : Prop :=
  ∀ (code : Nat) (s : State), noResetFor 2 s.host = true →
    exec (.unrecognized code) s = .next
      { s with
        cmd := { s.cmd with code := code }
        seq := .idle
        host := hostAfter 2 s.host
        history := s.history ++ [(s.now, .log code), (s.now, .done .unrecognized)] }

/-- 42_quadrature.md R157: VOLUME_UP whose read-back, after the activity pulse, is a phase. The two
tapes are the model's (log entries 2 and 3). -/
def Obligations.VolumeUpCompletes : Prop :=
  ∀ (s : State) (p : Phase), noResetFor 18 s.host = true → readPhase (afterPulse s) = some p →
    volumeInRange s.params.volW (s.vol + 1) = true →
    ∃ t, exec .volumeUp s = .next t ∧
      t = { stepEnd .plus p (readBack (afterPulse s)) with
        seq := .idle
        host := hostAfter 18 s.host
        history := (stepEnd .plus p (readBack (afterPulse s))).history ++ [(t.now, .done .ok)] } ∧
      t.vol = s.vol + 1 ∧ t.old = s.old ∧
      t.now = s.now + s.params.tBlink + 3 * s.params.tSettle + s.params.tTail

/-- R158: VOLUME_DOWN likewise; there is no floor. The two tapes are the model's (log entries 2 and 3). -/
def Obligations.VolumeDownCompletes : Prop :=
  ∀ (s : State) (p : Phase), noResetFor 18 s.host = true → readPhase (afterPulse s) = some p →
    volumeInRange s.params.volW (s.vol - 1) = true →
    ∃ t, exec .volumeDown s = .next t ∧
      t = { stepEnd .minus p (readBack (afterPulse s)) with
        seq := .idle
        host := hostAfter 18 s.host
        history := (stepEnd .minus p (readBack (afterPulse s))).history ++ [(t.now, .done .ok)] } ∧
      t.vol = s.vol - 1 ∧ t.old = s.old ∧
      t.now = s.now + s.params.tBlink + 3 * s.params.tSettle + s.params.tTail

/-- 41_dispatch.md R136, 42_quadrature.md R156: both volume commands on a read-back that is no phase.
The two tapes are the model's (log entries 2 and 3). -/
def Obligations.VolumeCommandsSurfaceProtocolError : Prop :=
  ∀ (s : State) (d : Direction) (i : Instr), (d = .plus ∧ i = .volumeUp) ∨ (d = .minus ∧ i = .volumeDown) →
    noResetFor 6 s.host = true → readPhase (afterPulse s) = none →
    exec i s = .next
      { readBack (afterPulse s) with
        d := d
        seq := .idle
        host := hostAfter 6 s.host
        history := (readBack (afterPulse s)).history ++
          [(s.now + s.params.tBlink, .done .protocolError)] }

/-- 44_power.md R200: POWER. The host's tape is the model's (log entry 3). -/
def Obligations.PowerCompletes : Prop :=
  ∀ s : State, noResetFor 8 s.host = true →
    exec .power s = .next
      { s with
        mode := { s.mode with pwr := .input }
        lat := { s.lat with pwr := .high }
        act := .low
        seq := .idle
        now := s.now + s.params.tBlink + s.params.tPower
        host := hostAfter 8 s.host
        history := s.history ++
          [(s.now, .act .high), (s.now + s.params.tBlink, .act .low),
           (s.now + s.params.tBlink, .latch .pwr .low), (s.now + s.params.tBlink, .mode .pwr .output),
           (s.now + s.params.tBlink + s.params.tPower, .latch .pwr .high),
           (s.now + s.params.tBlink + s.params.tPower, .mode .pwr .input),
           (s.now + s.params.tBlink + s.params.tPower, .done .ok)] }

/-- 43_mute.md R180, R181, R185: in every state and whatever the environment answers, MUTE is the
activity pulse, the branch's assignments, and then so many STEPs in so one direction, both fixed at
entry, up to one that raises; the end states differ in nothing but the loop index and the tape. The two
tapes are the model's (log entries 2 and 3). -/
def Obligations.MuteRunsItsSteps : Prop :=
  ∀ s : State, noReset s.host →
    match runSteps (muteDirection s) (muteSteps s) (muteBranch (afterPulse s)) with
    | .completed t => ∃ u, exec .mute s = .next u ∧
        { u with i := 0, host := [] } = { endCommand .ok t with i := 0, host := [] }
    | .aborted t => ∃ u, exec .mute s = .next u ∧
        { u with i := 0, host := [] } = { endCommand .protocolError t with i := 0, host := [] }
    | .overflowed t => ∃ u, exec .mute s = .next u ∧
        { u with i := 0, host := [] } = { enterFault .volumeOverflow t with i := 0, host := [] }

/-- R182, R188: the mute branch when every STEP resolves. The two tapes are the model's (log entries 2
and 3). -/
def Obligations.MuteGoesToZero : Prop :=
  ∀ (s : State) (answers : List Level) (rest : List SenseLevel),
    noReset s.host → 0 < s.vol → volumeInRange s.params.volW s.vol = true →
    s.env = answers.map .valid ++ rest → (answers.length : Int) = 2 * s.vol →
    ∃ t, exec .mute s = .next t ∧ t.vol = 0 ∧ t.old = s.vol ∧ t.seq = .idle ∧ t.act = .low ∧
      (t.now : Int) = s.now + s.params.tBlink + s.vol * (3 * s.params.tSettle + s.params.tTail) ∧
      t.mode = { s.mode with vdown := .input, vup := .input } ∧ t.lat.pwr = s.lat.pwr ∧
      t.env = rest ∧ t.history.getLast? = some (t.now, .done .ok)

/-- R183: the unmute branch when every STEP resolves; `old` is not written. The two tapes are the
model's (log entries 2 and 3). -/
def Obligations.UnmuteRestoresTheVolume : Prop :=
  ∀ (s : State) (answers : List Level) (rest : List SenseLevel),
    noReset s.host → s.vol = 0 → 0 < s.old → volumeInRange s.params.volW s.old = true →
    s.env = answers.map .valid ++ rest → (answers.length : Int) = 2 * s.old →
    ∃ t, exec .mute s = .next t ∧ t.vol = s.old ∧ t.old = s.old ∧ t.seq = .idle ∧ t.act = .low ∧
      (t.now : Int) = s.now + s.params.tBlink + s.old * (3 * s.params.tSettle + s.params.tTail) ∧
      t.mode = { s.mode with vdown := .input, vup := .input } ∧ t.lat.pwr = s.lat.pwr ∧
      t.env = rest ∧ t.history.getLast? = some (t.now, .done .ok)

/-- R183, R184: a MUTE with nothing to restore (`vol = 0` and `old` not positive), and one at a negative
volume under NOOP, make no STEP and no line event. The host's tape is the model's (log entry 3). -/
def Obligations.MuteWithoutSteps : Prop :=
  ∀ s : State, noResetFor 5 s.host = true →
    (s.vol = 0 ∧ s.old ≤ 0) ∨ (s.vol < 0 ∧ s.params.muteOnNegative = .noop) →
    ∃ n, exec .mute s = .next
      { s with
        n := n
        act := .low
        seq := .idle
        now := s.now + s.params.tBlink
        host := hostAfter 5 s.host
        history := s.history ++
          [(s.now, .act .high), (s.now + s.params.tBlink, .act .low),
           (s.now + s.params.tBlink, .done .ok)] }

/-- R184: a MUTE at a negative volume under UNMUTE goes up by `old`. The two tapes are the model's (log
entries 2 and 3). -/
def Obligations.MuteAtNegativeVolumeUnmutes : Prop :=
  ∀ (s : State) (answers : List Level) (rest : List SenseLevel),
    noReset s.host → s.vol < 0 → 0 < s.old → s.params.muteOnNegative = .unmute →
    volumeInRange s.params.volW s.vol = true → volumeInRange s.params.volW (s.vol + s.old) = true →
    s.env = answers.map .valid ++ rest → (answers.length : Int) = 2 * s.old →
    ∃ t, exec .mute s = .next t ∧ t.vol = s.vol + s.old ∧ t.old = s.old ∧ t.seq = .idle ∧
      t.env = rest ∧ t.history.getLast? = some (t.now, .done .ok)

/-- R185: a MUTE whose (j+1)-th read-back is no phase stops there: in the mute branch `old` is written
and `vol` has gone down by j, in the unmute branch `old` is unchanged and `vol` is j; the volume lines
are released and the result is PROTOCOL_ERROR. The two tapes are the model's (log entries 2 and 3). -/
def Obligations.MuteAbortsOnProtocolError : Prop :=
  ∀ (s : State) (answers : List Level) (a b : SenseLevel) (rest : List SenseLevel) (j : Nat),
    noReset s.host → volumeInRange s.params.volW (if 0 < s.vol then s.vol else s.old) = true →
    s.env = answers.map .valid ++ a :: b :: rest → answers.length = 2 * j → a = .inv ∨ b = .inv →
    (0 < s.vol ∧ (j : Int) < s.vol) ∨ (s.vol = 0 ∧ (j : Int) < s.old) →
    ∃ t, exec .mute s = .next t ∧
      (0 < s.vol → t.old = s.vol ∧ t.vol = s.vol - j) ∧ (s.vol = 0 → t.old = s.old ∧ t.vol = j) ∧
      t.mode = { s.mode with vdown := .input, vup := .input } ∧ t.seq = .idle ∧
      t.now = s.now + s.params.tBlink + j * (3 * s.params.tSettle + s.params.tTail) ∧
      t.env = rest ∧ t.history.getLast? = some (t.now, .done .protocolError)

/-- 41_dispatch.md R132, R136, 60_exceptions.md R227: without a reset, a command has run to completion, so
that the block is idle and the last event is its DONE, or, in a finite VOL_W only, an overflow has ended it
without a DONE. The host's tape is the model's (log entry 3). -/
def Obligations.CommandsRunToCompletion : Prop :=
  ∀ (i : Instr) (s : State), i.isCommand = true → noReset s.host →
    ∃ t, exec i s = .next t ∧
      ((t.seq = .idle ∧ ∃ r, t.history.getLast? = some (t.now, .done r)) ∨
       (t.seq = .fault .volumeOverflow ∧ s.params.volW ≠ none ∧
        t.history.countP (fun x => isDone x.2) = s.history.countP (fun x => isDone x.2)))

/-! Whole-machine rules. -/

/-- 10_state.md R31 to R33: without a reset, only MUTE changes `old`; only VOLUME_UP, VOLUME_DOWN, MUTE
and STEP change `vol`; nothing changes the parameters. The host's tape is the model's (log entry 3). -/
def Obligations.WhoWritesTheVolumeRegisters : Prop :=
  ∀ (i : Instr) (s t : State), noReset s.host → exec i s = .next t →
    (i ≠ .mute → t.old = s.old) ∧
    (i ≠ .mute → i ≠ .volumeUp → i ≠ .volumeDown → (∀ d, i ≠ .step d) → t.vol = s.vol) ∧
    t.params = s.params

/-- R48, R49, 60_exceptions.md R235, 20_memory.md R67: every step keeps the safe states: `old` is not
negative, the lines are in the mode their position requires and all released at IDLE, ACT is off outside
the pulses, the history is in the order of time, MUTE's index is within its count, and the only fault is
the overflow of a finite VOL_W. -/
def Obligations.StepKeepsSafeStates : Prop :=
  ∀ s t : State, Inv s → step s = .next t → Inv t

/-- 40_line_primitives.md R108, 60_exceptions.md R223: from a safe state no step enters or answers a
LineModeViolation. -/
def Obligations.SafeStepsNeverViolateLineModes : Prop :=
  ∀ (s : State) (op : LineOp) (l : Line), Inv s →
    step s ≠ .fault (.lineModeViolation op l) ∧
    ∀ t, step s = .next t → t.seq ≠ .fault (.lineModeViolation op l)

/-- 60_exceptions.md R223, R224, R229: a safe state of a block with unbounded volumes always has a next
state, and that is no fault state. -/
def Obligations.SafeStepsAlwaysAnswer : Prop :=
  ∀ s : State, Inv s → s.params.volW = none → ∃ t, step s = .next t ∧ ∀ r, t.seq ≠ .fault r

/-- 41_dispatch.md R136, 60_exceptions.md R227: every step keeps the balance of one DONE for each
accepted word, but for the word of a command that runs or that a fault has ended. A reset begins a new
history (log entry 6). -/
def Obligations.OneDoneForEachAccept : Prop :=
  ∀ s t : State, doneForEachAccept s → step s = .next t → doneForEachAccept t

/-- 00_scope.md R14, 10_state.md R42: every step keeps the modes and latches what the history says, so
that the pad waveform is a function of the history. A reset begins a new history (log entry 6). -/
def Obligations.PadsStayAFunctionOfTheHistory : Prop :=
  ∀ s t : State, padsFollowHistory s → step s = .next t → padsFollowHistory t

/-- 42_quadrature.md R163, 40_line_primitives.md R111: under QUIET_ENV, of two STEPs that end in
no fault the second one resolves the phase the first one left, and STEP(+1) then STEP(-1) leaves `vol` and
the phase of the pair as they were. QUIET_ENV is read from the LATCH events (log entry 14). -/
def Obligations.RoundTripUnderQuietEnvironment : Prop :=
  ∀ (e0 : PerLine Level) (d1 d2 : Direction) (s t u : State),
    exec (.step d1) s = .next t → exec (.step d2) t = .next u → faulted t = none → faulted u = none →
    quietHistory e0 u.history →
    ∃ p, readPhase s = some p ∧ readPhase t = some (mod4 (p.val + 3 * dirInt d1)) ∧
      (d1 = .plus → d2 = .minus →
        u.vol = s.vol ∧ (u.lat.vdown, u.lat.vup) = phasePair p)
end

