-- ==== Sys2Proof/Laws/State.lean ====
section
/-! SUPPORT. The fields of a state after each shared operation, and reading one line after writing one:
each true by unfolding, so that no later proof unfolds a record update. -/

namespace Sys2Proof.Machine

section EmitFields
variable (e : Event) (s : State)

@[simp] theorem emit_vol : (emit e s).vol = s.vol := rfl
@[simp] theorem emit_old : (emit e s).old = s.old := rfl
@[simp] theorem emit_mode : (emit e s).mode = s.mode := rfl
@[simp] theorem emit_lat : (emit e s).lat = s.lat := rfl
@[simp] theorem emit_act : (emit e s).act = s.act := rfl
@[simp] theorem emit_seq : (emit e s).seq = s.seq := rfl
@[simp] theorem emit_cmd : (emit e s).cmd = s.cmd := rfl
@[simp] theorem emit_p : (emit e s).p = s.p := rfl
@[simp] theorem emit_d : (emit e s).d = s.d := rfl
@[simp] theorem emit_off : (emit e s).off = s.off := rfl
@[simp] theorem emit_n : (emit e s).n = s.n := rfl
@[simp] theorem emit_i : (emit e s).i = s.i := rfl
@[simp] theorem emit_now : (emit e s).now = s.now := rfl
@[simp] theorem emit_sensed : (emit e s).sensed = s.sensed := rfl
@[simp] theorem emit_params : (emit e s).params = s.params := rfl
@[simp] theorem emit_env : (emit e s).env = s.env := rfl
@[simp] theorem emit_host : (emit e s).host = s.host := rfl
@[simp] theorem emit_history : (emit e s).history = s.history ++ [(s.now, e)] := rfl

end EmitFields

section SetModeInFields
variable (l : Line) (s : State)

@[simp] theorem setModeIn_vol : (setModeIn l s).vol = s.vol := rfl
@[simp] theorem setModeIn_old : (setModeIn l s).old = s.old := rfl
@[simp] theorem setModeIn_mode : (setModeIn l s).mode = set s.mode l .input := rfl
@[simp] theorem setModeIn_lat : (setModeIn l s).lat = s.lat := rfl
@[simp] theorem setModeIn_act : (setModeIn l s).act = s.act := rfl
@[simp] theorem setModeIn_seq : (setModeIn l s).seq = s.seq := rfl
@[simp] theorem setModeIn_cmd : (setModeIn l s).cmd = s.cmd := rfl
@[simp] theorem setModeIn_p : (setModeIn l s).p = s.p := rfl
@[simp] theorem setModeIn_d : (setModeIn l s).d = s.d := rfl
@[simp] theorem setModeIn_off : (setModeIn l s).off = s.off := rfl
@[simp] theorem setModeIn_n : (setModeIn l s).n = s.n := rfl
@[simp] theorem setModeIn_i : (setModeIn l s).i = s.i := rfl
@[simp] theorem setModeIn_now : (setModeIn l s).now = s.now := rfl
@[simp] theorem setModeIn_sensed : (setModeIn l s).sensed = s.sensed := rfl
@[simp] theorem setModeIn_params : (setModeIn l s).params = s.params := rfl
@[simp] theorem setModeIn_env : (setModeIn l s).env = s.env := rfl
@[simp] theorem setModeIn_host : (setModeIn l s).host = s.host := rfl
@[simp] theorem setModeIn_history : (setModeIn l s).history = s.history ++ [(s.now, .mode l .input)] := rfl

end SetModeInFields

section SetModeOutFields
variable (l : Line) (b : Level) (s : State)

@[simp] theorem setModeOut_vol : (setModeOut l b s).vol = s.vol := rfl
@[simp] theorem setModeOut_old : (setModeOut l b s).old = s.old := rfl
@[simp] theorem setModeOut_mode : (setModeOut l b s).mode = set s.mode l .output := rfl
@[simp] theorem setModeOut_lat : (setModeOut l b s).lat = set s.lat l b := rfl
@[simp] theorem setModeOut_act : (setModeOut l b s).act = s.act := rfl
@[simp] theorem setModeOut_seq : (setModeOut l b s).seq = s.seq := rfl
@[simp] theorem setModeOut_cmd : (setModeOut l b s).cmd = s.cmd := rfl
@[simp] theorem setModeOut_p : (setModeOut l b s).p = s.p := rfl
@[simp] theorem setModeOut_d : (setModeOut l b s).d = s.d := rfl
@[simp] theorem setModeOut_off : (setModeOut l b s).off = s.off := rfl
@[simp] theorem setModeOut_n : (setModeOut l b s).n = s.n := rfl
@[simp] theorem setModeOut_i : (setModeOut l b s).i = s.i := rfl
@[simp] theorem setModeOut_now : (setModeOut l b s).now = s.now := rfl
@[simp] theorem setModeOut_sensed : (setModeOut l b s).sensed = s.sensed := rfl
@[simp] theorem setModeOut_params : (setModeOut l b s).params = s.params := rfl
@[simp] theorem setModeOut_env : (setModeOut l b s).env = s.env := rfl
@[simp] theorem setModeOut_host : (setModeOut l b s).host = s.host := rfl
@[simp] theorem setModeOut_history : (setModeOut l b s).history =
    s.history ++ [(s.now, .latch l b)] ++ [(s.now, .mode l .output)] := rfl

end SetModeOutFields

section SenseFields
variable (l : Line) (s : State)

@[simp] theorem sense_vol : (sense l s).vol = s.vol := rfl
@[simp] theorem sense_old : (sense l s).old = s.old := rfl
@[simp] theorem sense_mode : (sense l s).mode = s.mode := rfl
@[simp] theorem sense_lat : (sense l s).lat = s.lat := rfl
@[simp] theorem sense_act : (sense l s).act = s.act := rfl
@[simp] theorem sense_seq : (sense l s).seq = s.seq := rfl
@[simp] theorem sense_cmd : (sense l s).cmd = s.cmd := rfl
@[simp] theorem sense_p : (sense l s).p = s.p := rfl
@[simp] theorem sense_d : (sense l s).d = s.d := rfl
@[simp] theorem sense_off : (sense l s).off = s.off := rfl
@[simp] theorem sense_n : (sense l s).n = s.n := rfl
@[simp] theorem sense_i : (sense l s).i = s.i := rfl
@[simp] theorem sense_now : (sense l s).now = s.now := rfl
@[simp] theorem sense_sensed : (sense l s).sensed = set s.sensed l (answer s l) := rfl
@[simp] theorem sense_params : (sense l s).params = s.params := rfl
@[simp] theorem sense_env : (sense l s).env = s.env.tail := rfl
@[simp] theorem sense_host : (sense l s).host = s.host := rfl
@[simp] theorem sense_history : (sense l s).history = s.history ++ [(s.now, .sample l (answer s l))] := rfl

end SenseFields

section WaitFields
variable (t : Nat) (s : State)

@[simp] theorem wait_vol : (wait t s).vol = s.vol := rfl
@[simp] theorem wait_old : (wait t s).old = s.old := rfl
@[simp] theorem wait_mode : (wait t s).mode = s.mode := rfl
@[simp] theorem wait_lat : (wait t s).lat = s.lat := rfl
@[simp] theorem wait_act : (wait t s).act = s.act := rfl
@[simp] theorem wait_seq : (wait t s).seq = s.seq := rfl
@[simp] theorem wait_cmd : (wait t s).cmd = s.cmd := rfl
@[simp] theorem wait_p : (wait t s).p = s.p := rfl
@[simp] theorem wait_d : (wait t s).d = s.d := rfl
@[simp] theorem wait_off : (wait t s).off = s.off := rfl
@[simp] theorem wait_n : (wait t s).n = s.n := rfl
@[simp] theorem wait_i : (wait t s).i = s.i := rfl
@[simp] theorem wait_now : (wait t s).now = s.now + t := rfl
@[simp] theorem wait_sensed : (wait t s).sensed = s.sensed := rfl
@[simp] theorem wait_params : (wait t s).params = s.params := rfl
@[simp] theorem wait_env : (wait t s).env = s.env := rfl
@[simp] theorem wait_host : (wait t s).host = s.host := rfl
@[simp] theorem wait_history : (wait t s).history = s.history := rfl

end WaitFields

section SetActFields
variable (b : Level) (s : State)

@[simp] theorem setAct_vol : (setAct b s).vol = s.vol := rfl
@[simp] theorem setAct_old : (setAct b s).old = s.old := rfl
@[simp] theorem setAct_mode : (setAct b s).mode = s.mode := rfl
@[simp] theorem setAct_lat : (setAct b s).lat = s.lat := rfl
@[simp] theorem setAct_act : (setAct b s).act = b := rfl
@[simp] theorem setAct_seq : (setAct b s).seq = s.seq := rfl
@[simp] theorem setAct_cmd : (setAct b s).cmd = s.cmd := rfl
@[simp] theorem setAct_p : (setAct b s).p = s.p := rfl
@[simp] theorem setAct_d : (setAct b s).d = s.d := rfl
@[simp] theorem setAct_off : (setAct b s).off = s.off := rfl
@[simp] theorem setAct_n : (setAct b s).n = s.n := rfl
@[simp] theorem setAct_i : (setAct b s).i = s.i := rfl
@[simp] theorem setAct_now : (setAct b s).now = s.now := rfl
@[simp] theorem setAct_sensed : (setAct b s).sensed = s.sensed := rfl
@[simp] theorem setAct_params : (setAct b s).params = s.params := rfl
@[simp] theorem setAct_env : (setAct b s).env = s.env := rfl
@[simp] theorem setAct_host : (setAct b s).host = s.host := rfl
@[simp] theorem setAct_history : (setAct b s).history = s.history ++ [(s.now, .act b)] := rfl

end SetActFields

section EndCommandFields
variable (r : Result) (s : State)

@[simp] theorem endCommand_vol : (endCommand r s).vol = s.vol := rfl
@[simp] theorem endCommand_old : (endCommand r s).old = s.old := rfl
@[simp] theorem endCommand_mode : (endCommand r s).mode = s.mode := rfl
@[simp] theorem endCommand_lat : (endCommand r s).lat = s.lat := rfl
@[simp] theorem endCommand_act : (endCommand r s).act = s.act := rfl
@[simp] theorem endCommand_seq : (endCommand r s).seq = .idle := rfl
@[simp] theorem endCommand_cmd : (endCommand r s).cmd = s.cmd := rfl
@[simp] theorem endCommand_p : (endCommand r s).p = s.p := rfl
@[simp] theorem endCommand_d : (endCommand r s).d = s.d := rfl
@[simp] theorem endCommand_off : (endCommand r s).off = s.off := rfl
@[simp] theorem endCommand_n : (endCommand r s).n = s.n := rfl
@[simp] theorem endCommand_i : (endCommand r s).i = s.i := rfl
@[simp] theorem endCommand_now : (endCommand r s).now = s.now := rfl
@[simp] theorem endCommand_sensed : (endCommand r s).sensed = s.sensed := rfl
@[simp] theorem endCommand_params : (endCommand r s).params = s.params := rfl
@[simp] theorem endCommand_env : (endCommand r s).env = s.env := rfl
@[simp] theorem endCommand_host : (endCommand r s).host = s.host := rfl
@[simp] theorem endCommand_history : (endCommand r s).history = s.history ++ [(s.now, .done r)] := rfl

end EndCommandFields

section AcceptFields
variable (w : CmdWord) (s : State)

@[simp] theorem accept_vol : (accept w s).vol = s.vol := rfl
@[simp] theorem accept_old : (accept w s).old = s.old := rfl
@[simp] theorem accept_mode : (accept w s).mode = s.mode := rfl
@[simp] theorem accept_lat : (accept w s).lat = s.lat := rfl
@[simp] theorem accept_act : (accept w s).act = s.act := rfl
@[simp] theorem accept_seq : (accept w s).seq = .busy (decodeCode w.code) (startPos (decodeCode w.code)) := rfl
@[simp] theorem accept_cmd : (accept w s).cmd = w := rfl
@[simp] theorem accept_p : (accept w s).p = s.p := rfl
@[simp] theorem accept_d : (accept w s).d = s.d := rfl
@[simp] theorem accept_off : (accept w s).off = s.off := rfl
@[simp] theorem accept_n : (accept w s).n = s.n := rfl
@[simp] theorem accept_i : (accept w s).i = s.i := rfl
@[simp] theorem accept_now : (accept w s).now = s.now := rfl
@[simp] theorem accept_sensed : (accept w s).sensed = s.sensed := rfl
@[simp] theorem accept_params : (accept w s).params = s.params := rfl
@[simp] theorem accept_env : (accept w s).env = s.env := rfl
@[simp] theorem accept_host : (accept w s).host = s.host := rfl
@[simp] theorem accept_history : (accept w s).history = s.history ++ [(s.now, .accept w.code w.address w.control)] := rfl

end AcceptFields

section Drive
variable (l : Line) (b : Level) (s : State)

@[simp] theorem drive_vol : (drive l b s).vol = s.vol := rfl
@[simp] theorem drive_old : (drive l b s).old = s.old := rfl
@[simp] theorem drive_mode : (drive l b s).mode = s.mode := rfl
@[simp] theorem drive_lat : (drive l b s).lat = set s.lat l b := rfl
@[simp] theorem drive_act : (drive l b s).act = s.act := rfl
@[simp] theorem drive_seq : (drive l b s).seq = s.seq := rfl
@[simp] theorem drive_cmd : (drive l b s).cmd = s.cmd := rfl
@[simp] theorem drive_p : (drive l b s).p = s.p := rfl
@[simp] theorem drive_d : (drive l b s).d = s.d := rfl
@[simp] theorem drive_off : (drive l b s).off = s.off := rfl
@[simp] theorem drive_n : (drive l b s).n = s.n := rfl
@[simp] theorem drive_i : (drive l b s).i = s.i := rfl
@[simp] theorem drive_now : (drive l b s).now = s.now := rfl
@[simp] theorem drive_history : (drive l b s).history = s.history ++ [(s.now, .latch l b)] := rfl
@[simp] theorem drive_sensed : (drive l b s).sensed = s.sensed := rfl
@[simp] theorem drive_params : (drive l b s).params = s.params := rfl
@[simp] theorem drive_env : (drive l b s).env = s.env := rfl
@[simp] theorem drive_host : (drive l b s).host = s.host := rfl

end Drive

section EnterFault
variable (r : Fault) (s : State)

@[simp] theorem enterFault_vol : (enterFault r s).vol = s.vol := rfl
@[simp] theorem enterFault_old : (enterFault r s).old = s.old := rfl
@[simp] theorem enterFault_mode : (enterFault r s).mode = s.mode := rfl
@[simp] theorem enterFault_lat : (enterFault r s).lat = s.lat := rfl
@[simp] theorem enterFault_act : (enterFault r s).act = s.act := rfl
@[simp] theorem enterFault_seq : (enterFault r s).seq = .fault r := rfl
@[simp] theorem enterFault_cmd : (enterFault r s).cmd = s.cmd := rfl
@[simp] theorem enterFault_p : (enterFault r s).p = s.p := rfl
@[simp] theorem enterFault_d : (enterFault r s).d = s.d := rfl
@[simp] theorem enterFault_off : (enterFault r s).off = s.off := rfl
@[simp] theorem enterFault_n : (enterFault r s).n = s.n := rfl
@[simp] theorem enterFault_i : (enterFault r s).i = s.i := rfl
@[simp] theorem enterFault_now : (enterFault r s).now = s.now := rfl
@[simp] theorem enterFault_history : (enterFault r s).history = s.history := rfl
@[simp] theorem enterFault_sensed : (enterFault r s).sensed = s.sensed := rfl
@[simp] theorem enterFault_params : (enterFault r s).params = s.params := rfl
@[simp] theorem enterFault_env : (enterFault r s).env = s.env := rfl
@[simp] theorem enterFault_host : (enterFault r s).host = s.host := rfl

end EnterFault

section LineAccess
variable {α : Type} (x : PerLine α) (v : α)

@[simp] theorem get_set_same (l : Line) : get (set x l v) l = v := by cases l <;> rfl

theorem get_set_other {l l' : Line} (h : l' ≠ l) : get (set x l v) l' = get x l' := by
  cases l <;> cases l' <;> first | rfl | exact absurd rfl h

@[simp] theorem set_set_same (l : Line) (u : α) : set (set x l u) l v = set x l v := by cases l <;> rfl

/-- Writing the value a line has changes nothing. -/
@[simp] theorem set_get_self (l : Line) : set x l (get x l) = x := by cases l <;> rfl

@[simp] theorem get_vdown : get x .vdown = x.vdown := rfl
@[simp] theorem get_vup : get x .vup = x.vup := rfl
@[simp] theorem get_pwr : get x .pwr = x.pwr := rfl
@[simp] theorem set_vdown : set x .vdown v = { x with vdown := v } := rfl
@[simp] theorem set_vup : set x .vup v = { x with vup := v } := rfl
@[simp] theorem set_pwr : set x .pwr v = { x with pwr := v } := rfl

end LineAccess

section Sequencing
variable (f : State → Out)

@[simp] theorem andThen_next (s : State) : andThen (.next s) f = f s := rfl
@[simp] theorem andThen_fault (r : Fault) : andThen (.fault r) f = .fault r := rfl
@[simp] theorem andThen_refused (r : Refusal) : andThen (.refused r) f = .refused r := rfl

theorem andThen_assoc (o : Out) (g : State → Out) :
    andThen (andThen o f) g = andThen o fun s => andThen (f s) g := by cases o <;> rfl

/-- `andThen` answers a next state only through one. -/
theorem andThen_eq_next {o : Out} {t : State} :
    andThen o f = .next t ↔ ∃ s, o = .next s ∧ f s = .next t := by cases o <;> simp

end Sequencing

end Sys2Proof.Machine
end

