-- ==== Sys2Proof/Laws/Ops.lean ====
section
/-! SUPPORT. One lemma for each shared operation: everything it can do. And the laws of the host's tape. -/

namespace Sys2Proof.Machine

theorem readLine_of_input {l : Line} {s : State} (h : get s.mode l = .input) :
    readLine l s = sense l s := by simp [readLine, h]

theorem readLine_of_output {l : Line} {s : State} (h : get s.mode l = .output) :
    readLine l s = enterFault (.lineModeViolation .read l) s := by simp [readLine, h]

theorem writeLine_of_output {l : Line} {b : Level} {s : State} (h : get s.mode l = .output) :
    writeLine l b s = drive l b s := by simp [writeLine, h]

theorem writeLine_of_input {l : Line} {b : Level} {s : State} (h : get s.mode l = .input) :
    writeLine l b s = enterFault (.lineModeViolation .write l) s := by simp [writeLine, h]

/-- READ2 of two released lines. -/
theorem readPair_of_input {s : State} (h1 : s.mode.vdown = .input) (h2 : s.mode.vup = .input) :
    readPair s = sense .vup (sense .vdown s) := by simp [readPair, readLine, h1, h2]

/-- WRITE2 of two driven lines. -/
theorem writePair_of_output {a b : Level} {s : State} (h1 : s.mode.vdown = .output)
    (h2 : s.mode.vup = .output) : writePair a b s = drive .vup b (drive .vdown a s) := by
  simp [writePair, writeLine, h1, h2]

theorem addVolume_of_inRange {s : State} (h : volumeInRange s.params.volW (s.vol + dirInt s.d) = true) :
    addVolume s = { s with vol := s.vol + dirInt s.d } := by simp [addVolume, h]

theorem addVolume_of_overflow {s : State} (h : volumeInRange s.params.volW (s.vol + dirInt s.d) = false) :
    addVolume s = enterFault .volumeOverflow s := by simp [addVolume, h]

@[simp] theorem volumeInRange_none (v : Int) : volumeInRange none v = true := rfl

/-- A finite range has no gap: between two volumes in range every volume is. -/
theorem volumeInRange_between {w : Option Nat} {a b v : Int} (ha : volumeInRange w a = true)
    (hb : volumeInRange w b = true) (h1 : a ≤ v) (h2 : v ≤ b) : volumeInRange w v = true := by
  cases w with
  | none => rfl
  | some w =>
    simp only [volumeInRange, Bool.and_eq_true, decide_eq_true_eq] at *
    omega

theorem volumeInRange_zero (w : Option Nat) : volumeInRange w 0 = true := by
  cases w with
  | none => rfl
  | some w => simp [volumeInRange]

@[simp] theorem answer_cons (s : State) (l : Line) (a : SenseLevel) (rest : List SenseLevel) :
    answer { s with env := a :: rest } l = a := rfl

theorem answer_of_env {s : State} {a : SenseLevel} {rest : List SenseLevel} (h : s.env = a :: rest)
    (l : Line) : answer s l = a := by simp [answer, h]

/-- Every pair of valid levels resolves, and a pair that resolves is one of valid levels. -/
theorem resolvePair_eq_some {sd su : SenseLevel} {p : Phase} :
    resolvePair sd su = some p ↔ ∃ a b, sd = .valid a ∧ su = .valid b ∧ p = phaseIndex a b := by
  cases sd <;> cases su <;> simp [resolvePair, eq_comm]

theorem resolvePair_eq_none {sd su : SenseLevel} :
    resolvePair sd su = none ↔ sd = .inv ∨ su = .inv := by
  cases sd <;> cases su <;> simp [resolvePair]

@[simp] theorem phasePair_phaseIndex (a b : Level) : phasePair (phaseIndex a b) = (a, b) := by
  cases a <;> cases b <;> rfl

theorem muteSteps_of_pos {s : State} (h : s.vol > 0) : muteSteps s = s.vol.toNat := by
  simp [muteSteps, h]

theorem muteSteps_of_zero {s : State} (h : s.vol = 0) : muteSteps s = s.old.toNat := by
  simp [muteSteps, h]
  omega

/-- The count of a MUTE depends on `vol`, `old` and MUTE_ON_NEGATIVE alone. -/
theorem muteSteps_congr {s t : State} (hv : t.vol = s.vol) (ho : t.old = s.old)
    (hp : t.params = s.params) : muteSteps t = muteSteps s := by
  simp only [muteSteps, hv, ho, hp]

/-- The branch's assignments leave the count of the loop as it was. -/
@[simp] theorem muteSteps_muteBranch (s : State) : muteSteps (muteBranch s) = muteSteps s := by
  unfold muteBranch
  split
  · simp [muteSteps, *]
  · split
    · exact muteSteps_congr rfl rfl rfl
    · split
      · exact muteSteps_congr rfl rfl rfl
      · rfl

/-- What MUTE's branch can do. -/
theorem muteBranch_cases (s : State) :
    (s.vol > 0 ∧ muteBranch s = { s with old := s.vol, n := muteSteps s }) ∨
    (s.vol ≤ 0 ∧ muteBranch s = { s with n := muteSteps s }) ∨
    (s.vol < 0 ∧ muteSteps s = 0 ∧ muteBranch s = s) := by
  by_cases h1 : s.vol > 0
  · exact .inl ⟨h1, by simp [muteBranch, h1]⟩
  · by_cases h2 : s.vol = 0
    · exact .inr (.inl ⟨by omega, by simp [muteBranch, h2]⟩)
    · cases h3 : s.params.muteOnNegative with
      | noop => exact .inr (.inr ⟨by omega, by simp [muteSteps, h1, h2, h3], by simp [muteBranch, h1, h2, h3]⟩)
      | unmute => exact .inr (.inl ⟨by omega, by simp [muteBranch, h1, h2, h3]⟩)

/-! The host's tape. -/

theorem hostAfter_add (j k : Nat) (h : List HostMove) :
    hostAfter (j + k) h = hostAfter k (hostAfter j h) := by
  induction j generalizing h with
  | zero => simp [hostAfter]
  | succ j ih => rw [Nat.succ_add]; exact ih _

theorem noResetFor_add (j k : Nat) (h : List HostMove) :
    noResetFor (j + k) h = (noResetFor j h && noResetFor k (hostAfter j h)) := by
  induction j generalizing h with
  | zero => simp [hostAfter, noResetFor]
  | succ j ih => rw [Nat.succ_add]; simp [noResetFor, hostAfter, ih, Bool.and_assoc]

theorem noResetFor_mono {j k : Nat} (hjk : j ≤ k) {h : List HostMove} (hk : noResetFor k h = true) :
    noResetFor j h = true := by
  obtain ⟨m, rfl⟩ := Nat.exists_eq_add_of_le hjk
  rw [noResetFor_add, Bool.and_eq_true] at hk
  exact hk.1

theorem mem_of_mem_hostWhileBusy {m : HostMove} {h : List HostMove} (hm : m ∈ hostWhileBusy h) : m ∈ h := by
  unfold hostWhileBusy at hm
  split at hm <;> simp_all

theorem resetDriven_of_not_mem {h : List HostMove} (hr : .reset ∉ h) : resetDriven h = false := by
  unfold resetDriven
  split <;> simp_all

/-- A tape without a reset drives none, however long the block is busy. -/
theorem noResetFor_of_not_mem (k : Nat) {h : List HostMove} (hr : .reset ∉ h) : noResetFor k h = true := by
  induction k generalizing h with
  | zero => rfl
  | succ k ih =>
    simp only [noResetFor, resetDriven_of_not_mem hr, Bool.not_false, Bool.true_and]
    exact ih fun hm => hr (mem_of_mem_hostWhileBusy hm)

end Sys2Proof.Machine
end

