-- ==== Sys2Proof/Laws/Composite.lean ====
section
/-! SUPPORT. What each pseudocode does, said once: the activity pulse, STEP, PRESS_POWER and the boot
sequence, as equations between states. -/

namespace Sys2Proof.Machine

open Sys2Proof.Safety

/-- Every line answers a state: it completes, or it ends the command by an outcome or a fault. -/
theorem runAction_answers (a : Action) (s : State) : ∃ t, runAction a s = .next t := by
  cases a with
  | resolve =>
    cases hp : resolvePair s.sensed.vdown s.sensed.vup <;>
      exact ⟨_, by simp only [runAction, execResolve, hp]; rfl⟩
  | _ => exact ⟨_, rfl⟩

/-- How a list of lines ends: it ran to its end, or line number `k` raised an outcome or a fault.
`runCode` forgets which. -/
inductive CodeEnd
  | ran (t : State)
  | ended (k : Nat) (t : State)

/-- One more line before. -/
def CodeEnd.succ : CodeEnd → CodeEnd
  | .ran t => .ran t
  | .ended k t => .ended (k + 1) t

/-- The outcome of a list of lines, whichever way it ended. -/
def CodeEnd.out : CodeEnd → Out
  | .ran t => .next t
  | .ended _ t => .next t

/-- The state after a line. -/
def afterLine (a : Action) (s : State) : State :=
  match runAction a s with
  | .next t => t
  | .fault _ => s
  | .refused _ => s

theorem runAction_eq (a : Action) (s : State) : runAction a s = .next (afterLine a s) := by
  obtain ⟨t, h⟩ := runAction_answers a s
  simp only [afterLine, h]

section LineEffects
variable (s : State)

@[simp] theorem afterLine_setAct (b : Level) : afterLine (.setAct b) s = setAct b s := rfl
@[simp] theorem afterLine_wait (t : Delay) : afterLine (.wait t) s = wait (delayMs s.params t) s := rfl
@[simp] theorem afterLine_lineIn (l : Line) : afterLine (.lineIn l) s = setModeIn l s := rfl
@[simp] theorem afterLine_lineOut (l : Line) (b : Level) : afterLine (.lineOut l b) s = setModeOut l b s := rfl
@[simp] theorem afterLine_lineWrite (l : Line) (b : Level) : afterLine (.lineWrite l b) s = writeLine l b s := rfl
@[simp] theorem afterLine_pairIn : afterLine .pairIn s = setModeIn .vup (setModeIn .vdown s) := rfl
@[simp] theorem afterLine_pairRead : afterLine .pairRead s = readPair s := rfl
@[simp] theorem afterLine_pairOut :
    afterLine .pairOut s = setModeOut .vup (phasePair s.p).2 (setModeOut .vdown (phasePair s.p).1 s) := rfl
@[simp] theorem afterLine_drive (off : Fin 4) :
    afterLine (.drive off) s =
      writePair (phasePair (drivePhase s.p s.d off)).1 (phasePair (drivePhase s.p s.d off)).2
        { s with off := off } := rfl
@[simp] theorem afterLine_addVolume : afterLine .addVolume s = addVolume s := rfl
@[simp] theorem afterLine_branch : afterLine .branch s = muteBranch s := rfl
@[simp] theorem afterLine_log : afterLine .log s = emit (.log s.cmd.code) s := rfl
@[simp] theorem afterLine_done (r : Result) : afterLine (.done r) s = emit (.done r) s := rfl

variable {s}

theorem afterLine_resolve_some {p : Phase} (h : resolvePair s.sensed.vdown s.sensed.vup = some p) :
    afterLine .resolve s = { s with p := p } := by simp [afterLine, runAction, execResolve, h]

theorem afterLine_resolve_none (h : resolvePair s.sensed.vdown s.sensed.vup = none) :
    afterLine .resolve s = endCommand .protocolError s := by simp [afterLine, runAction, execResolve, h]

end LineEffects

/-- `runCode`, saying how the lines end. -/
def codeEnd : List Action → State → CodeEnd
  | [], s => .ran s
  | a :: rest, s => if raises a s then .ended 1 (afterLine a s) else (codeEnd rest (afterLine a s)).succ

@[simp] theorem CodeEnd.out_succ (e : CodeEnd) : e.succ.out = e.out := by cases e <;> rfl

theorem codeEnd_out (code : List Action) (s : State) : (codeEnd code s).out = runCode code s := by
  induction code generalizing s with
  | nil => rfl
  | cons a rest ih =>
    cases hr : raises a s with
    | true => simp [codeEnd, runCode, runAction_eq, hr, CodeEnd.out]
    | false => simp [codeEnd, runCode, runAction_eq, hr, ih]

theorem afterLine_eq {a : Action} {s t : State} (h : runAction a s = .next t) : afterLine a s = t := by
  simp only [afterLine, h]

theorem codeEnd_cons {a : Action} {rest : List Action} {s s' : State} (h : runAction a s = .next s')
    (hr : raises a s = false) : codeEnd (a :: rest) s = (codeEnd rest s').succ := by
  simp [codeEnd, afterLine_eq h, hr]

theorem codeEnd_pulse (s : State) : codeEnd pulseCode s = .ran (afterPulse s) := by
  simp [codeEnd, CodeEnd.succ, pulseCode, raises, setAct, wait, emit, afterPulse, delayMs]

/-- STEP up to its RESOLVE. -/
theorem codeEnd_step (s : State) :
    codeEnd stepCode s = (codeEnd (stepCode.drop 2) (readBack s)).succ.succ := by
  rw [stepCode, codeEnd_cons (s' := setModeIn .vup (setModeIn .vdown s)) rfl rfl, codeEnd_cons _ rfl]
  · rfl
  · rfl

/-- The read-back neither reads nor writes `d`. -/
theorem readBack_d (d : Direction) (s : State) :
    readBack { s with d := d } = { readBack s with d := d } := rfl

@[simp] theorem readBack_sensed_vdown (s : State) :
    (readBack s).sensed.vdown = answer (setModeIn .vup (setModeIn .vdown s)) .vdown := rfl

@[simp] theorem readBack_sensed_vup (s : State) :
    (readBack s).sensed.vup = answer (sense .vdown (setModeIn .vup (setModeIn .vdown s))) .vup := rfl

@[simp] theorem readBack_vol (s : State) : (readBack s).vol = s.vol := rfl
@[simp] theorem readBack_params (s : State) : (readBack s).params = s.params := rfl
@[simp] theorem readBack_now (s : State) : (readBack s).now = s.now := rfl
@[simp] theorem readBack_host (s : State) : (readBack s).host = s.host := rfl
@[simp] theorem readBack_seq (s : State) : (readBack s).seq = s.seq := rfl

/-- The answers of the tape are what the read-back senses. -/
theorem readPhase_of_env {s : State} {a b : SenseLevel} {rest : List SenseLevel}
    (h : s.env = a :: b :: rest) : readPhase s = resolvePair a b := by
  simp [readPhase, answer, h]

/-- What a STEP that resolved phase `p` has done after its release, before `vol <- vol + d`. -/
theorem codeEnd_drives (r : State) (p : Phase) (hp : resolvePair r.sensed.vdown r.sensed.vup = some p) :
    codeEnd (stepCode.drop 2) r =
      if volumeInRange r.params.volW (r.vol + dirInt r.d) then .ran (stepEnd r.d p r)
      else .ended 12 (enterFault .volumeOverflow { stepEnd r.d p r with vol := r.vol }) := by
  have h2 : r.now + r.params.tSettle + r.params.tSettle = r.now + 2 * r.params.tSettle := by omega
  cases hv : volumeInRange r.params.volW (r.vol + dirInt r.d) <;>
    simp [stepCode, codeEnd, CodeEnd.succ, raises, hp, hv, h2, afterLine_resolve_some, writePair, writeLine, drive,
      wait, setModeOut, setModeIn, emit, addVolume, enterFault, stepEnd, stepEvents, driveEvents, drivePhase,
      delayMs] <;>
    omega

/-- A STEP whose read-back is a phase runs to its end, with the effect of R152 to R155. -/
theorem codeEnd_step_resolved {s : State} {p : Phase} (hp : readPhase s = some p)
    (hv : volumeInRange s.params.volW (s.vol + dirInt s.d) = true) :
    codeEnd stepCode s = .ran (stepEnd s.d p (readBack s)) := by
  have hv' : volumeInRange (readBack s).params.volW ((readBack s).vol + dirInt (readBack s).d) = true := hv
  rw [codeEnd_step, codeEnd_drives (readBack s) p hp, if_pos hv']
  rfl

/-- A STEP whose volume would leave a finite VOL_W ends in FAULT at its last line (60_exceptions.md R224). -/
theorem codeEnd_step_overflow {s : State} {p : Phase} (hp : readPhase s = some p)
    (hv : volumeInRange s.params.volW (s.vol + dirInt s.d) = false) :
    codeEnd stepCode s =
      .ended 14 (enterFault .volumeOverflow { stepEnd s.d p (readBack s) with vol := s.vol }) := by
  have hv' : volumeInRange (readBack s).params.volW ((readBack s).vol + dirInt (readBack s).d) = false := hv
  rw [codeEnd_step, codeEnd_drives (readBack s) p hp, if_neg (ne_true_of_eq_false hv')]
  rfl

/-- A STEP whose pair read back is no phase ends at its third line (R156). -/
theorem codeEnd_step_unresolved {s : State} (hp : readPhase s = none) :
    codeEnd stepCode s = .ended 3 (endCommand .protocolError (readBack s)) := by
  have key : ∀ r : State, resolvePair r.sensed.vdown r.sensed.vup = none →
      codeEnd (stepCode.drop 2) r = .ended 1 (endCommand .protocolError r) := by
    intro r hp
    simp [stepCode, codeEnd, raises, hp, afterLine_resolve_none]
  rw [codeEnd_step, key _ hp]
  rfl

theorem execStep_resolved {d : Direction} {s : State} {p : Phase} (hp : readPhase s = some p)
    (hv : volumeInRange s.params.volW (s.vol + dirInt d) = true) :
    execStep d s = .next (stepEnd d p (readBack s)) := by
  rw [execStep, ← codeEnd_out, codeEnd_step_resolved (s := { s with d := d }) hp hv]
  rfl

theorem execStep_overflow {d : Direction} {s : State} {p : Phase} (hp : readPhase s = some p)
    (hv : volumeInRange s.params.volW (s.vol + dirInt d) = false) :
    execStep d s = .next (enterFault .volumeOverflow { stepEnd d p (readBack s) with vol := s.vol }) := by
  rw [execStep, ← codeEnd_out, codeEnd_step_overflow (s := { s with d := d }) hp hv]
  rfl

theorem execStep_unresolved {d : Direction} {s : State} (hp : readPhase s = none) :
    execStep d s = .next (endCommand .protocolError { readBack s with d := d }) := by
  rw [execStep, ← codeEnd_out, codeEnd_step_unresolved (s := { s with d := d }) hp]
  rfl

/-- The state PRESS_POWER ends in (44_power.md R201). -/
theorem codeEnd_power (s : State) :
    codeEnd powerCode s = .ran
      { s with
        mode := { s.mode with pwr := .input }
        lat := { s.lat with pwr := .high }
        now := s.now + s.params.tPower
        history := s.history ++
          [(s.now, .latch .pwr .low), (s.now, .mode .pwr .output),
           (s.now + s.params.tPower, .latch .pwr .high), (s.now + s.params.tPower, .mode .pwr .input)] } := by
  simp [powerCode, codeEnd, CodeEnd.succ, raises, setModeOut, wait, writeLine, drive, setModeIn, emit, delayMs]

/-- The state the boot sequence ends in (70_reset_and_hazards.md R251), but for `seq`. -/
theorem codeEnd_boot (s : State) :
    codeEnd bootCode s = .ran
      { s with
        act := .low
        now := s.now + 2 * (s.params.tBootOn + s.params.tBootOff)
        history := s.history ++
          [(s.now, .act .high), (s.now + s.params.tBootOn, .act .low),
           (s.now + s.params.tBootOn + s.params.tBootOff, .act .high),
           (s.now + s.params.tBootOn + s.params.tBootOff + s.params.tBootOn, .act .low)] } := by
  simp [bootCode, codeEnd, CodeEnd.succ, raises, setAct, wait, emit, delayMs]
  omega

end Sys2Proof.Machine
end

