-- ==== Sys2Proof/Laws/Sequencer.lean ====
section
/-! SUPPORT. The sequencer: a cycle without a reset is a tick, a tick leaves the tape alone, and the
segments of a command's run (activity pulse, one STEP, PRESS_POWER) are the pseudocodes of Composite.lean. -/

namespace Sys2Proof.Machine

open Sys2Proof.Safety

theorem finalFault_eq_some {s : State} {r : Fault} :
    finalFault s = some r ↔ s.host = [] ∧ s.seq = .fault r := by
  cases hh : s.host <;> cases hs : s.seq <;> simp [finalFault, faulted, hh, hs]

theorem finalFault_of_not_fault {s : State} (h : faulted s = none) : finalFault s = none := by
  cases hh : s.host <;> simp [finalFault, hh, h]

theorem faulted_of_busy {s : State} (h : busy s.seq = true) : faulted s = none := by
  cases hs : s.seq <;> simp_all [busy, faulted]

/-- A cycle without a reset is a tick, but for the end of a run in FAULT. -/
theorem cycle_of_no_reset {s : State} (h : resetDriven s.host = false) (hf : finalFault s = none) :
    cycle s = tick { s with host := hostWhileBusy s.host } := by simp [cycle, h, hf]

/-- FAULT with no more host moves (60_exceptions.md R223). -/
theorem cycle_of_finalFault {s : State} {r : Fault} (h : finalFault s = some r) : cycle s = .fault r := by
  have hh := (finalFault_eq_some.1 h).1
  simp [cycle, h, hh, resetDriven]

theorem cycle_of_reset {s : State} (h : resetDriven s.host = true) :
    cycle s = .next (resetBlock { s with host := s.host.tail }) := by simp [cycle, h]

/-- Off IDLE a step is a cycle. -/
theorem step_of_not_idle {s : State} (h : s.seq ≠ .idle) : step s = cycle s := by
  cases hr : resetDriven s.host with
  | true => simp [step, cycle, hr]
  | false => cases hs : s.seq <;> simp_all [step]

theorem step_of_reset {s : State} (h : resetDriven s.host = true) :
    step s = .next (resetBlock { s with host := s.host.tail }) := by simp [step, h]

theorem tick_of_busy {s : State} {c : Cmd} {k : Pos} (hs : s.seq = .busy c k) :
    tick s = andThen (runAction (actionAt c k) s) fun t =>
      .next (if raises (actionAt c k) s then t else advance c k t) := by
  simp only [tick, hs]

theorem tick_of_boot {s : State} {k : Fin 8} (hs : s.seq = .boot k) :
    tick s = andThen (runAction (bootCode.get k) s) fun t => .next (advanceBoot k t) := by
  simp only [tick, hs]

/-- A tick of a command at position `k` whose line answers `s'`. -/
theorem tick_busy {s s' : State} {c : Cmd} {k : Pos} (hs : s.seq = .busy c k)
    (ha : runAction (actionAt c k) s = .next s') :
    tick s = .next (if raises (actionAt c k) s then s' else advance c k s') := by
  rw [tick_of_busy hs, ha, andThen_next]

theorem tick_boot {s s' : State} {k : Fin 8} (hs : s.seq = .boot k)
    (ha : runAction (bootCode.get k) s = .next s') : tick s = .next (advanceBoot k s') := by
  simp only [tick, hs, ha, andThen_next]

/-- A step inside a command, without a reset. -/
theorem step_of_busy {s : State} {c : Cmd} {k : Pos} (hs : s.seq = .busy c k)
    (hr : resetDriven s.host = false) : step s = tick { s with host := hostWhileBusy s.host } := by
  rw [step_of_not_idle (by simp [hs]), cycle_of_no_reset hr (finalFault_of_not_fault (by simp [faulted, hs]))]

/-- A step of the boot sequence, without a reset. -/
theorem step_of_boot {s : State} {k : Fin 8} (hs : s.seq = .boot k) (hr : resetDriven s.host = false) :
    step s = tick { s with host := hostWhileBusy s.host } := by
  rw [step_of_not_idle (by simp [hs]), cycle_of_no_reset hr (finalFault_of_not_fault (by simp [faulted, hs]))]

/-- One more cycle of a running command. -/
theorem runBusy_succ {k : Nat} {s s' : State} (hb : busy s.seq = true)
    (hr : resetDriven s.host = false) (ht : tick { s with host := hostWhileBusy s.host } = .next s') :
    runBusy (k + 1) s = runBusy k s' := by
  simp [runBusy, hb, cycle_of_no_reset hr (finalFault_of_not_fault (faulted_of_busy hb)), ht]

theorem runBusy_of_not_busy {s : State} (h : busy s.seq = false) (k : Nat) : runBusy k s = .next s := by
  cases k <;> simp [runBusy, h]

/-- `s` with its position and its tape set. -/
def place (q : Seq) (h : List HostMove) (s : State) : State := { s with seq := q, host := h }

@[simp] theorem place_seq (q : Seq) (h : List HostMove) (s : State) : (place q h s).seq = q := rfl
@[simp] theorem place_host (q : Seq) (h : List HostMove) (s : State) : (place q h s).host = h := rfl

@[simp] theorem place_place (q q' : Seq) (h h' : List HostMove) (s : State) :
    place q h (place q' h' s) = place q h s := rfl

@[simp] theorem raises_place (a : Action) (q : Seq) (h : List HostMove) (s : State) :
    raises a (place q h s) = raises a s := by cases a <;> rfl

/-- A line reads neither `seq` nor the tape, and writes `seq` only if it raises. -/
theorem afterLine_place (a : Action) (q : Seq) (h : List HostMove) (s : State) :
    afterLine a (place q h s) = place (if raises a s then (afterLine a s).seq else q) h (afterLine a s) := by
  cases a with
  | lineWrite l b => cases hm : get s.mode l <;> simp [raises, writeLine, hm, place, drive, enterFault, emit]
  | pairRead =>
    cases h1 : s.mode.vdown <;> cases h2 : s.mode.vup <;>
      simp [raises, readPair, readLine, sense, h1, h2, place, enterFault, emit, answer]
  | drive off =>
    cases h1 : s.mode.vdown <;> cases h2 : s.mode.vup <;>
      simp [raises, writePair, writeLine, drive, h1, h2, place, enterFault, emit]
  | resolve =>
    cases hp : resolvePair s.sensed.vdown s.sensed.vup with
    | none =>
      rw [afterLine_resolve_none (s := place q h s) hp, afterLine_resolve_none hp]
      simp [raises, hp, endCommand, place, emit]
    | some p =>
      rw [afterLine_resolve_some (s := place q h s) hp, afterLine_resolve_some hp]
      simp [raises, hp, place]
  | addVolume =>
    cases hv : volumeInRange s.params.volW (s.vol + dirInt s.d) <;>
      simp [raises, addVolume, hv, place, enterFault]
  | branch =>
    simp only [afterLine_branch, raises, muteBranch, place]
    split
    · rfl
    · split
      · rfl
      · cases s.params.muteOnNegative <;> rfl
  | _ => rfl

/-- What a line that raises leaves: the command ended with PROTOCOL_ERROR (60_exceptions.md R228), or the
block in FAULT (R223, R224) with nothing more written than lines driven or sensed before. -/
theorem afterLine_seq_of_raise {a : Action} {s : State} (h : raises a s = true) :
    (a = .resolve ∧ afterLine a s = endCommand .protocolError s) ∨ ∃ r, (afterLine a s).seq = .fault r := by
  cases a with
  | resolve =>
    have hp : resolvePair s.sensed.vdown s.sensed.vup = none := by simpa [raises] using h
    exact .inl ⟨rfl, afterLine_resolve_none hp⟩
  | lineWrite l b =>
    have hm : get s.mode l = .input := by simpa [raises] using h
    exact .inr ⟨.lineModeViolation .write l, by simp [writeLine, hm]⟩
  | pairRead =>
    cases h1 : s.mode.vdown <;> cases h2 : s.mode.vup <;> simp [raises, h1, h2] at h
    · exact .inr ⟨.lineModeViolation .read .vup, by simp [readPair, readLine, h1, h2]⟩
    · exact .inr ⟨.lineModeViolation .read .vdown, by simp [readPair, h1]⟩
    · exact .inr ⟨.lineModeViolation .read .vdown, by simp [readPair, h1]⟩
  | drive off =>
    cases h1 : s.mode.vdown <;> cases h2 : s.mode.vup <;> simp [raises, h1, h2] at h
    · exact .inr ⟨.lineModeViolation .write .vdown, by simp [writePair, h1]⟩
    · exact .inr ⟨.lineModeViolation .write .vdown, by simp [writePair, h1]⟩
    · exact .inr ⟨.lineModeViolation .write .vup, by simp [writePair, writeLine, h1, h2]⟩
  | addVolume =>
    have hv : volumeInRange s.params.volW (s.vol + dirInt s.d) = false := by simpa [raises] using h
    exact .inr ⟨.volumeOverflow, by simp [addVolume, hv]⟩
  | _ => simp [raises] at h

/-- After a line that raises no command runs. -/
theorem not_busy_of_raise {a : Action} {s : State} (h : raises a s = true) :
    busy (afterLine a s).seq = false := by
  obtain ⟨-, e⟩ | ⟨r, e⟩ := afterLine_seq_of_raise h <;> rw [e] <;> rfl

/-- One cycle of a running command: its line, and what follows it unless the line raises. -/
theorem runBusy_line {h : List HostMove} (hr : resetDriven h = false) (c : Cmd) (k : Pos) (m : Nat)
    (s : State) :
    runBusy (m + 1) (place (.busy c k) h s) =
      if raises (actionAt c k) s then
        .next (place (afterLine (actionAt c k) s).seq (hostWhileBusy h) (afterLine (actionAt c k) s))
      else
        runBusy m (advance c k (place (.busy c k) (hostWhileBusy h) (afterLine (actionAt c k) s))) := by
  have ht : cycle (place (.busy c k) h s) = tick (place (.busy c k) (hostWhileBusy h) s) :=
    cycle_of_no_reset hr (finalFault_of_not_fault rfl)
  rw [runBusy, place_seq, busy, if_pos rfl, ht, tick_busy rfl (runAction_eq _ _), andThen_next,
    raises_place, afterLine_place]
  cases hraise : raises (actionAt c k) s with
  | true =>
    simp only [if_true]
    exact runBusy_of_not_busy (by rw [place_seq]; exact not_busy_of_raise hraise) m
  | false => rfl

/-- The first of some positions that lead to `last`. -/
def firstOf : List Pos → Pos → Pos
  | [], last => last
  | k :: _, _ => k

/-- Each of the positions leads to the next one, the last of them to `last`. -/
def leadsTo (c : Cmd) : List Pos → Pos → Prop
  | [], _ => True
  | k :: rest, last => (∀ s, advance c k s = { s with seq := .busy c (firstOf rest last) }) ∧ leadsTo c rest last

/-- How the run goes on after a chain of `n` lines with last position `last`, by the way they ended. -/
def resume (m : Nat) (c : Cmd) (last : Pos) (n : Nat) (h : List HostMove) : CodeEnd → Out
  | .ran t => runBusy m (advance c last (place (.busy c last) (hostAfter n h) t))
  | .ended j t => .next (place t.seq (hostAfter j h) t)

theorem resume_succ (m : Nat) (c : Cmd) (last : Pos) (n : Nat) (h : List HostMove) (e : CodeEnd) :
    resume m c last (n + 1) h e.succ = resume m c last n (hostWhileBusy h) e := by cases e <;> rfl

/-- The cycles of a chain of positions are its lines. -/
theorem runBusy_chain (c : Cmd) (m : Nat) (last : Pos) (ks : List Pos) :
    ∀ (s : State) (h : List HostMove), leadsTo c ks last → noResetFor (ks.length + 1) h = true →
      runBusy (m + ks.length + 1) (place (.busy c (firstOf ks last)) h s) =
        resume m c last (ks.length + 1) h (codeEnd (ks.map (actionAt c) ++ [actionAt c last]) s) := by
  induction ks with
  | nil =>
    intro s h _ hr
    simp only [List.length_nil, noResetFor, Bool.and_eq_true, Bool.not_eq_true'] at hr
    rw [firstOf, List.length_nil, Nat.add_zero, runBusy_line hr.1]
    cases hraise : raises (actionAt c last) s <;> simp [codeEnd, hraise, resume, hostAfter, CodeEnd.succ]
  | cons k rest ih =>
    intro s h hc hr
    rw [List.length_cons, noResetFor, Bool.and_eq_true, Bool.not_eq_true'] at hr
    rw [firstOf, List.length_cons, ← Nat.add_assoc, runBusy_line hr.1, List.map_cons, List.cons_append, codeEnd]
    cases hraise : raises (actionAt c k) s with
    | true => rfl
    | false =>
      rw [if_neg Bool.false_ne_true, if_neg Bool.false_ne_true, resume_succ, ← ih _ _ hc.2 hr.2, hc.1]
      rfl

/-- The three cycles of the activity pulse. -/
theorem runBusy_pulse {h : List HostMove} (hr : noResetFor 3 h = true) (c : Cmd) (m : Nat) (s : State) :
    runBusy (m + 3) (place (.busy c (.pulse 0)) h s) =
      runBusy m (startBody c (place (.busy c (.pulse 2)) (hostAfter 3 h) (afterPulse s))) := by
  have := runBusy_chain c m (.pulse 2) [.pulse 0, .pulse 1] s h (by simp [leadsTo, firstOf, advance]) hr
  rw [show [Pos.pulse 0, Pos.pulse 1].map (actionAt c) ++ [actionAt c (.pulse 2)] = pulseCode from rfl,
    codeEnd_pulse] at this
  exact this

/-- The fourteen cycles of a STEP, fewer if it raises. -/
theorem runBusy_step {h : List HostMove} (hr : noResetFor 14 h = true) (c : Cmd) (m : Nat) (s : State) :
    runBusy (m + 14) (place (.busy c (.step 0)) h s) =
      resume m c (.step 13) 14 h (codeEnd stepCode s) :=
  runBusy_chain c m (.step 13)
    [.step 0, .step 1, .step 2, .step 3, .step 4, .step 5, .step 6, .step 7, .step 8, .step 9, .step 10,
     .step 11, .step 12] s h (by simp [leadsTo, firstOf, advance]) hr

/-- The four cycles of PRESS_POWER. -/
theorem runBusy_power {h : List HostMove} (hr : noResetFor 4 h = true) (c : Cmd) (m : Nat) (s : State) :
    runBusy (m + 4) (place (.busy c (.power 0)) h s) =
      resume m c (.power 3) 4 h (codeEnd powerCode s) :=
  runBusy_chain c m (.power 3) [.power 0, .power 1, .power 2] s h (by simp [leadsTo, firstOf, advance]) hr

/-- The last cycle of a command. -/
theorem runBusy_done {h : List HostMove} (hr : resetDriven h = false) (c : Cmd) (m : Nat) (s : State) :
    runBusy (m + 1) (place (.busy c .done) h s) =
      .next (place .idle (hostWhileBusy h) (emit (.done (normalResult c)) s)) := by
  rw [runBusy_line hr]
  exact runBusy_of_not_busy rfl m

/-- The cycle of UNRECOGNIZED's LOG. -/
theorem runBusy_log {h : List HostMove} (hr : resetDriven h = false) (c : Cmd) (m : Nat) (s : State) :
    runBusy (m + 1) (place (.busy c .log) h s) =
      runBusy m (place (.busy c .done) (hostWhileBusy h) (emit (.log s.cmd.code) s)) := by
  rw [runBusy_line hr]
  rfl

/-- The cycle of MUTE's branch. -/
theorem runBusy_branch {h : List HostMove} (hr : resetDriven h = false) (c : Cmd) (m : Nat) (s : State) :
    runBusy (m + 1) (place (.busy c .branch) h s) =
      runBusy m (startLoop c (place (.busy c .branch) (hostWhileBusy h) (muteBranch s))) := by
  rw [runBusy_line hr]
  rfl

/-- The loop index is read and written by no STEP. -/
theorem runSteps_index (d : Direction) (j n : Nat) (s : State) :
    runSteps d n { s with i := j } =
      match runSteps d n s with
      | .completed t => .completed { t with i := j }
      | .aborted t => .aborted { t with i := j }
      | .overflowed t => .overflowed { t with i := j } := by
  induction n generalizing s with
  | zero => rfl
  | succ n ih =>
    simp only [runSteps, show readPhase { s with i := j } = readPhase s from rfl]
    cases readPhase s with
    | none => rfl
    | some p =>
      simp only
      split
      · exact ih (stepEnd d p (readBack s))
      · rfl

/-- How MUTE ends when its STEPs end so, `h` and `j` being its tape and loop index then. -/
def muteEnd (h : List HostMove) (j : Nat) : StepsEnd → Out
  | .completed t => .next (place .idle h (emit (.done .ok) { t with i := j }))
  | .aborted t => .next (place .idle h (emit (.done .protocolError) { t with i := j }))
  | .overflowed t => .next (place (.fault .volumeOverflow) h { t with i := j })

/-- A STEP inside a command: it ends the command, or what follows the STEP goes on. -/
theorem runBusy_oneStep {h : List HostMove} (hr : noResetFor 14 h = true) (c : Cmd) (m : Nat) (s : State) :
    runBusy (m + 14) (place (.busy c (.step 0)) h s) =
      match readPhase s with
      | none => .next (place .idle (hostAfter 3 h) (emit (.done .protocolError) (readBack s)))
      | some p =>
        if volumeInRange s.params.volW (s.vol + dirInt s.d) then
          runBusy m (afterStep c (place (.busy c (.step 13)) (hostAfter 14 h) (stepEnd s.d p (readBack s))))
        else .next (place (.fault .volumeOverflow) (hostAfter 14 h)
          { stepEnd s.d p (readBack s) with vol := s.vol }) := by
  rw [runBusy_step hr]
  cases hp : readPhase s with
  | none => rw [codeEnd_step_unresolved hp]; rfl
  | some p =>
    cases hv : volumeInRange s.params.volW (s.vol + dirInt s.d) with
    | false => rw [codeEnd_step_overflow hp hv]; rfl
    | true => rw [codeEnd_step_resolved hp hv]; rfl

/-- A STEP whose read-back is no phase takes three cycles. -/
theorem runBusy_unresolved {h : List HostMove} (hr : noResetFor 3 h = true) (c : Cmd) (m : Nat) {s : State}
    (hp : readPhase s = none) :
    runBusy (m + 3) (place (.busy c (.step 0)) h s) =
      .next (place .idle (hostAfter 3 h) (emit (.done .protocolError) (readBack s))) := by
  have hq : raises .resolve (readBack s) = true := by simpa [raises, readPhase] using hp
  have he : codeEnd [.pairIn, .pairRead, .resolve] s = .ended 3 (endCommand .protocolError (readBack s)) := by
    rw [codeEnd_cons (s' := setModeIn .vup (setModeIn .vdown s)) rfl rfl,
      codeEnd_cons (s' := readBack s) rfl rfl]
    simp only [codeEnd, afterLine_resolve_none hp, hq, if_true, CodeEnd.succ]
  have := runBusy_chain c m (.step 2) [.step 0, .step 1] s h (by simp [leadsTo, firstOf, advance]) hr
  rw [show [Pos.step 0, Pos.step 1].map (actionAt c) ++ [actionAt c (.step 2)] =
    [.pairIn, .pairRead, .resolve] from rfl, he] at this
  exact this

/-- MUTE's loop with `r` STEPs left after the one that starts, and its DONE (43_mute.md R180, R181, R185). -/
theorem runBusy_loop (r : Nat) : ∀ (s : State) (h : List HostMove), s.i + r = s.n →
    noResetFor (14 * (r + 1) + 1) h = true →
    ∃ h' j, runBusy (14 * (r + 1) + 1) (place (.busy .mute (.step 0)) h s) =
      muteEnd h' j (runSteps s.d (r + 1) s) := by
  induction r with
  | zero =>
    intro s h hi hr
    have hr' : noResetFor (14 + 1) h = true := hr
    rw [noResetFor_add, Bool.and_eq_true] at hr'
    have h1 : resetDriven (hostAfter 14 h) = false := by simpa [noResetFor] using hr'.2
    rw [show 14 * (0 + 1) + 1 = 1 + 14 from rfl, runBusy_oneStep hr'.1, runSteps]
    cases readPhase s with
    | none => exact ⟨hostAfter 3 h, s.i, rfl⟩
    | some p =>
      simp only
      split
      · have hn : ¬ (place (.busy .mute (.step 13)) (hostAfter 14 h) (stepEnd s.d p (readBack s))).i <
            (place (.busy .mute (.step 13)) (hostAfter 14 h) (stepEnd s.d p (readBack s))).n :=
          show ¬ s.i < s.n by omega
        simp only [afterStep, if_neg hn]
        exact ⟨hostWhileBusy (hostAfter 14 h), s.i, runBusy_done h1 .mute 0 _⟩
      · exact ⟨hostAfter 14 h, s.i, rfl⟩
  | succ r ih =>
    intro s h hi hr
    have hr' : noResetFor (14 + (14 * (r + 1) + 1)) h = true := by
      rw [show 14 + (14 * (r + 1) + 1) = 14 * (r + 1 + 1) + 1 by omega]; exact hr
    rw [noResetFor_add, Bool.and_eq_true] at hr'
    rw [show 14 * (r + 1 + 1) + 1 = (14 * (r + 1) + 1) + 14 by omega, runBusy_oneStep hr'.1, runSteps]
    cases hp : readPhase s with
    | none => exact ⟨hostAfter 3 h, s.i, rfl⟩
    | some p =>
      simp only
      split
      · have hn : (place (.busy .mute (.step 13)) (hostAfter 14 h) (stepEnd s.d p (readBack s))).i <
            (place (.busy .mute (.step 13)) (hostAfter 14 h) (stepEnd s.d p (readBack s))).n :=
          show s.i < s.n by omega
        simp only [afterStep, if_pos hn]
        obtain ⟨h', j, e⟩ := ih { stepEnd s.d p (readBack s) with i := s.i + 1 } (hostAfter 14 h)
          (show s.i + 1 + r = s.n by omega) hr'.2
        refine ⟨h', j, e.trans ?_⟩
        rw [runSteps_index]
        show muteEnd h' j (match runSteps s.d (r + 1) (stepEnd s.d p (readBack s)) with
          | .completed t => .completed { t with i := s.i + 1 }
          | .aborted t => .aborted { t with i := s.i + 1 }
          | .overflowed t => .overflowed { t with i := s.i + 1 }) = _
        cases runSteps s.d (r + 1) (stepEnd s.d p (readBack s)) <;> rfl
      · exact ⟨hostAfter 14 h, s.i, rfl⟩

/-- A command starts at its first position, with its own tape. -/
theorem runCommand_eq (c : Cmd) (s : State) :
    runCommand c s = runBusy (commandCycles c s) (place (.busy c (startPos c)) s.host s) := rfl

end Sys2Proof.Machine
end

