-- ==== Sys2Proof/Laws/Induction.lean ====
section
/-! SUPPORT. What one line and one tick can do, said once, and the induction that carries a property from
ticks to cycles, commands and steps. -/

namespace Sys2Proof.Machine

open Sys2Proof.Safety

/-- What a line that raises nothing has done: the precondition it met and the state it leaves. -/
def lineEffect (a : Action) (s t : State) : Prop :=
  match a with
  | .setAct b => t = setAct b s
  | .wait d => t = wait (delayMs s.params d) s
  | .lineIn l => t = setModeIn l s
  | .lineOut l b => t = setModeOut l b s
  | .lineWrite l b => get s.mode l = .output ∧ t = drive l b s
  | .pairIn => t = setModeIn .vup (setModeIn .vdown s)
  | .pairRead => s.mode.vdown = .input ∧ s.mode.vup = .input ∧ t = sense .vup (sense .vdown s)
  | .resolve => ∃ p, resolvePair s.sensed.vdown s.sensed.vup = some p ∧ t = { s with p := p }
  | .pairOut => t = setModeOut .vup (phasePair s.p).2 (setModeOut .vdown (phasePair s.p).1 s)
  | .drive off =>
    s.mode.vdown = .output ∧ s.mode.vup = .output ∧
      t = { s with
        off := off
        lat := { s.lat with
          vdown := (phasePair (drivePhase s.p s.d off)).1
          vup := (phasePair (drivePhase s.p s.d off)).2 }
        history := s.history ++ driveEvents s.now (phasePair (drivePhase s.p s.d off)) }
  | .addVolume =>
    volumeInRange s.params.volW (s.vol + dirInt s.d) = true ∧ t = { s with vol := s.vol + dirInt s.d }
  | .branch => t = muteBranch s
  | .log => t = emit (.log s.cmd.code) s
  | .done r => t = emit (.done r) s

theorem afterLine_effect {a : Action} {s : State} (hr : raises a s = false) :
    lineEffect a s (afterLine a s) := by
  cases a with
  | lineWrite l b =>
    have hm : get s.mode l = .output := by
      cases hm : get s.mode l
      · simp [raises, hm] at hr
      · rfl
    exact ⟨hm, writeLine_of_output hm⟩
  | pairRead =>
    cases h1 : s.mode.vdown <;> cases h2 : s.mode.vup <;> simp [raises, h1, h2] at hr
    exact ⟨h1, h2, readPair_of_input h1 h2⟩
  | drive off =>
    cases h1 : s.mode.vdown <;> cases h2 : s.mode.vup <;> simp [raises, h1, h2] at hr
    refine ⟨h1, h2, ?_⟩
    rw [afterLine_drive, writePair_of_output (s := { s with off := off }) h1 h2]
    simp [drive, emit, driveEvents]
  | resolve =>
    cases hp : resolvePair s.sensed.vdown s.sensed.vup with
    | none => simp [raises, hp] at hr
    | some p => exact ⟨p, hp, afterLine_resolve_some hp⟩
  | addVolume =>
    have hv : volumeInRange s.params.volW (s.vol + dirInt s.d) = true := by simpa [raises] using hr
    exact ⟨hv, addVolume_of_inRange hv⟩
  | _ => rfl

/-- What a line that raises has done: RESOLVE has ended the command, or the block is in FAULT, one of the
pair's lines sensed or driven before (40_line_primitives.md R113). -/
inductive RaiseEffect (s : State) : Action → State → Prop
  | unresolved (h : resolvePair s.sensed.vdown s.sensed.vup = none) :
    RaiseEffect s .resolve (endCommand .protocolError s)
  | write (l : Line) (b : Level) (h : get s.mode l = .input) :
    RaiseEffect s (.lineWrite l b) (enterFault (.lineModeViolation .write l) s)
  | readDown (h : s.mode.vdown = .output) :
    RaiseEffect s .pairRead (enterFault (.lineModeViolation .read .vdown) s)
  | readUp (h : s.mode.vup = .output) :
    RaiseEffect s .pairRead (enterFault (.lineModeViolation .read .vup) (sense .vdown s))
  | driveDown (off : Fin 4) (h : s.mode.vdown = .input) :
    RaiseEffect s (.drive off) (enterFault (.lineModeViolation .write .vdown) { s with off := off })
  | driveUp (off : Fin 4) (h : s.mode.vup = .input) :
    RaiseEffect s (.drive off) (enterFault (.lineModeViolation .write .vup)
      (drive .vdown (phasePair (drivePhase s.p s.d off)).1 { s with off := off }))
  | overflow (h : volumeInRange s.params.volW (s.vol + dirInt s.d) = false) :
    RaiseEffect s .addVolume (enterFault .volumeOverflow s)

theorem afterLine_raise {a : Action} {s : State} (hr : raises a s = true) :
    RaiseEffect s a (afterLine a s) := by
  cases a with
  | resolve =>
    have hp : resolvePair s.sensed.vdown s.sensed.vup = none := by simpa [raises] using hr
    rw [afterLine_resolve_none hp]
    exact .unresolved hp
  | lineWrite l b =>
    have hm : get s.mode l = .input := by simpa [raises] using hr
    rw [afterLine_lineWrite, writeLine_of_input hm]
    exact .write l b hm
  | pairRead =>
    cases h1 : s.mode.vdown with
    | output => simpa [readPair, h1] using RaiseEffect.readDown h1
    | input =>
      have h2 : s.mode.vup = .output := by simpa [raises, h1] using hr
      simpa [readPair, readLine, h1, h2] using RaiseEffect.readUp h2
  | drive off =>
    cases h1 : s.mode.vdown with
    | input => simpa [writePair, h1] using RaiseEffect.driveDown off h1
    | output =>
      have h2 : s.mode.vup = .input := by simpa [raises, h1] using hr
      simpa [writePair, writeLine, h1, h2] using RaiseEffect.driveUp off h2
  | addVolume =>
    have hv : volumeInRange s.params.volW (s.vol + dirInt s.d) = false := by simpa [raises] using hr
    rw [afterLine_addVolume, addVolume_of_overflow hv]
    exact .overflow hv
  | _ => simp [raises] at hr

/-- What follows a line writes the position, the direction and the loop index, and nothing else. -/
theorem advance_eq (c : Cmd) (k : Pos) (s : State) :
    ∃ q d i, advance c k s = { s with seq := q, d := d, i := i } := by
  cases k <;> simp only [advance]
  · exact ⟨_, _, _, rfl⟩
  · split
    · exact ⟨_, _, _, rfl⟩
    · cases c <;> exact ⟨_, _, _, rfl⟩
  · unfold startLoop; split <;> exact ⟨_, _, _, rfl⟩
  · split
    · exact ⟨_, _, _, rfl⟩
    · cases c <;> simp only [afterStep]
      case mute => split <;> exact ⟨_, _, _, rfl⟩
      all_goals exact ⟨_, _, _, rfl⟩
  · split <;> exact ⟨_, _, _, rfl⟩
  · exact ⟨_, _, _, rfl⟩

theorem advanceBoot_eq (k : Fin 8) (s : State) : ∃ q, advanceBoot k s = { s with seq := q } := by
  unfold advanceBoot
  split <;> exact ⟨_, rfl⟩

/-- No line of the boot sequence raises. -/
theorem raises_bootCode (k : Fin 8) (s : State) : raises (bootCode.get k) s = false := by fin_cases k <;> rfl

/-- A tick always answers, and it is one of five things. -/
theorem tick_cases (s : State) :
    (s.seq = .idle ∧ tick s = .next s) ∨
    (∃ r, s.seq = .fault r ∧ tick s = .next s) ∨
    (∃ k, s.seq = .boot k ∧ tick s = .next (advanceBoot k (afterLine (bootCode.get k) s))) ∨
    (∃ c k, s.seq = .busy c k ∧ raises (actionAt c k) s = true ∧
      tick s = .next (afterLine (actionAt c k) s)) ∨
    (∃ c k, s.seq = .busy c k ∧ raises (actionAt c k) s = false ∧
      tick s = .next (advance c k (afterLine (actionAt c k) s))) := by
  cases hs : s.seq with
  | idle => exact .inl ⟨rfl, by simp only [tick, hs]⟩
  | fault r => exact .inr (.inl ⟨r, rfl, by simp only [tick, hs]⟩)
  | boot k => exact .inr (.inr (.inl ⟨k, rfl, by rw [tick_of_boot hs, runAction_eq, andThen_next]⟩))
  | busy c k =>
    cases hr : raises (actionAt c k) s with
    | true =>
      refine .inr (.inr (.inr (.inl ⟨c, k, rfl, hr, ?_⟩)))
      rw [tick_busy hs (runAction_eq _ _), hr, if_pos rfl]
    | false =>
      refine .inr (.inr (.inr (.inr ⟨c, k, rfl, hr, ?_⟩)))
      rw [tick_busy hs (runAction_eq _ _), hr, if_neg Bool.false_ne_true]

/-- A property that the lines keep, with what follows them, is kept by ticks. -/
theorem tick_keeps {P : State → Prop}
    (hboot : ∀ s k, P s → s.seq = .boot k → P (advanceBoot k (afterLine (bootCode.get k) s)))
    (hraise : ∀ s c k, P s → s.seq = .busy c k → raises (actionAt c k) s = true →
      P (afterLine (actionAt c k) s))
    (hline : ∀ s c k, P s → s.seq = .busy c k → raises (actionAt c k) s = false →
      P (advance c k (afterLine (actionAt c k) s))) :
    ∀ s t, P s → tick s = .next t → P t := by
  intro s t hs h
  obtain ⟨-, e⟩ | ⟨r, -, e⟩ | ⟨k, hq, e⟩ | ⟨c, k, hq, hr, e⟩ | ⟨c, k, hq, hr, e⟩ := tick_cases s <;>
    rw [e] at h <;> cases h
  · exact hs
  · exact hs
  · exact hboot s k hs hq
  · exact hraise s c k hs hq hr
  · exact hline s c k hs hq hr

/-! A line and a tick neither read nor write the host's tape. -/

/-- A line that raises nothing leaves the position to the sequencer. -/
theorem afterLine_seq {a : Action} {s : State} (hr : raises a s = false) : (afterLine a s).seq = s.seq := by
  simpa [place, hr] using congrArg State.seq (afterLine_place a s.seq s.host s)

theorem afterLine_tape (a : Action) (s : State) (h : List HostMove) :
    afterLine a { s with host := h } = { afterLine a s with host := h } := by
  have e := afterLine_place a s.seq h s
  cases hr : raises a s with
  | true => rw [hr, if_pos rfl] at e; exact e
  | false =>
    rw [hr, if_neg Bool.false_ne_true] at e
    exact e.trans (by rw [place, ← afterLine_seq hr])

@[simp] theorem raises_host (a : Action) (s : State) (h : List HostMove) :
    raises a { s with host := h } = raises a s := by cases a <;> rfl

@[simp] theorem afterLine_host (a : Action) (s : State) : (afterLine a s).host = s.host := by
  have h := congrArg State.host (afterLine_tape a s s.host)
  exact h

theorem advance_tape (c : Cmd) (k : Pos) (s : State) (h : List HostMove) :
    advance c k { s with host := h } = { advance c k s with host := h } := by
  have hm : muteSteps { s with host := h } = muteSteps s := rfl
  cases k <;> simp only [advance, startLoop, hm, muteDirection]
  case pulse j =>
    split
    · rfl
    · cases c <;> rfl
  case branch => by_cases h0 : muteSteps s = 0 <;> simp only [h0, if_true, if_false]
  case step j =>
    split
    · rfl
    · cases c <;> simp only [afterStep]
      by_cases h0 : s.i < s.n <;> simp only [h0, if_true, if_false]
  case power j => split <;> rfl

theorem advanceBoot_tape (k : Fin 8) (s : State) (h : List HostMove) :
    advanceBoot k { s with host := h } = { advanceBoot k s with host := h } := by
  unfold advanceBoot
  split <;> rfl

theorem tick_tape (s : State) (h : List HostMove) :
    tick { s with host := h } = andThen (tick s) fun t => .next { t with host := h } := by
  obtain ⟨q, hs⟩ : ∃ q, s.seq = q := ⟨_, rfl⟩
  cases q with
  | idle => simp [tick, hs]
  | fault r => simp [tick, hs]
  | boot k =>
    rw [tick_of_boot (s := { s with host := h }) hs, tick_of_boot hs, runAction_eq, runAction_eq,
      andThen_next, andThen_next, andThen_next, afterLine_tape, advanceBoot_tape]
  | busy c k =>
    rw [tick_busy (s := { s with host := h }) hs (runAction_eq _ _), tick_busy hs (runAction_eq _ _),
      andThen_next, raises_host, afterLine_tape, advance_tape]
    split <;> rfl

/-- A property that resets, tape moves and ticks keep is kept by cycles. -/
theorem cycle_keeps {P : State → Prop} (hreset : ∀ s, P s → P (resetBlock s))
    (hhost : ∀ s h, P s → P { s with host := h }) (htick : ∀ s t, P s → tick s = .next t → P t) :
    ∀ s t, P s → cycle s = .next t → P t := by
  intro s t hs h
  unfold cycle at h
  split at h
  · cases h; exact hreset _ (hhost _ _ hs)
  · split at h
    · cases h
    · exact htick _ _ (hhost _ _ hs) h

/-- A property that cycles keep is kept by the run of a command. -/
theorem runBusy_keeps {P : State → Prop} (hP : ∀ s t, P s → cycle s = .next t → P t) (k : Nat) :
    ∀ s t, P s → runBusy k s = .next t → P t := by
  induction k with
  | zero => intro s t hs h; cases h; exact hs
  | succ k ih =>
    intro s t hs h
    unfold runBusy at h
    split at h
    · rw [andThen_eq_next] at h
      obtain ⟨u, h1, h2⟩ := h
      exact ih u t (hP s u hs h1) h2
    · cases h; exact hs

/-- The instruction of an accepted word is the run of its command. -/
theorem exec_decode_accept (w : CmdWord) (s : State) :
    exec (decode w) (accept w s) =
      runBusy (commandCycles (decodeCode w.code) (accept w s)) (accept w s) := by
  unfold decode
  cases hd : decodeCode w.code <;>
    simp only [Cmd.instr, exec, execVolumeUp, execVolumeDown, execMute, execPower, execUnrecognized,
      runCommand] <;>
    simp [accept, hd, startPos, emit, commandCycles]

/-- A property that resets, tape moves, ticks and acceptance keep is kept by every step. -/
theorem step_keeps {P : State → Prop} (hreset : ∀ s, P s → P (resetBlock s))
    (hhost : ∀ s h, P s → P { s with host := h }) (htick : ∀ s t, P s → tick s = .next t → P t)
    (haccept : ∀ s w, P s → s.seq = .idle → P (accept w s)) :
    ∀ s t, P s → step s = .next t → P t := by
  have hc := cycle_keeps hreset hhost htick
  intro s t hs h
  by_cases hi : s.seq = .idle
  · unfold step at h
    split at h
    · cases h; exact hreset _ (hhost _ _ hs)
    · rw [hi] at h
      simp only at h
      split at h
      · next w hw =>
        have h' : exec (decode w) (accept w { s with host := s.host.tail }) = .next t := by
          simpa [hi] using h
        rw [exec_decode_accept] at h'
        exact runBusy_keeps hc _ _ _ (haccept { s with host := s.host.tail } w (hhost _ _ hs) hi) h'
      · cases h
        simpa [hi] using hhost s s.host.tail hs
  · rw [step_of_not_idle hi] at h
    exact hc s t hs h

end Sys2Proof.Machine
end

