-- ==== Sys2Proof/Laws/PerInstr.lean ====
section
/-! SUPPORT. Statements made per instruction, as syntax. `Format`: the format of an instruction
(30_encoding.md R89) and the width of its code (R81, R83). -/

namespace Sys2Proof.Laws.Format

/-- A well-formed instruction of format CMD has a code that fits CODE_W; one of format INTERNAL has none. -/
def Statement (i : Instr) : Prop :=
  ∀ P : Params, P.legal = true → i.wf P = true →
    match codeOf i with
    | some code => i.isCommand = true ∧ code < 2 ^ P.codeW
    | none => i.isCommand = false

/-- The four recognized codes need 5 bits (00_scope.md R7). -/
theorem code_fits {P : Params} (h : P.legal = true) {code : Nat} (hc : code < 32) : code < 2 ^ P.codeW := by
  have h5 : 2 ^ 5 ≤ 2 ^ P.codeW := Nat.pow_le_pow_right (by decide) (of_decide_eq_true h)
  omega

theorem volumeUp : Statement .volumeUp := fun _ h _ => ⟨rfl, code_fits h (by decide)⟩
theorem volumeDown : Statement .volumeDown := fun _ h _ => ⟨rfl, code_fits h (by decide)⟩
theorem mute : Statement .mute := fun _ h _ => ⟨rfl, code_fits h (by decide)⟩
theorem power : Statement .power := fun _ h _ => ⟨rfl, code_fits h (by decide)⟩

theorem unrecognized (code : Nat) : Statement (.unrecognized code) := fun P _ h => by
  simp only [Instr.wf, wfUnrecognized, Bool.and_eq_true, decide_eq_true_eq] at h
  exact ⟨rfl, h.1⟩

theorem setModeIn (l : Line) : Statement (.setModeIn l) := fun _ _ _ => rfl
theorem setModeOut (l : Line) (init : Level) : Statement (.setModeOut l init) := fun _ _ _ => rfl
theorem read (l : Line) : Statement (.read l) := fun _ _ _ => rfl
theorem write (l : Line) (b : Level) : Statement (.write l b) := fun _ _ _ => rfl
theorem wait (t : Nat) : Statement (.wait t) := fun _ _ _ => rfl
theorem setAct (b : Level) : Statement (.setAct b) := fun _ _ _ => rfl
theorem emit (e : Event) : Statement (.emit e) := fun _ _ _ => rfl
theorem pair (op : PairOp) : Statement (.pair op) := fun _ _ _ => rfl
theorem activityPulse : Statement .activityPulse := fun _ _ _ => rfl
theorem resolve (sd su : SenseLevel) : Statement (.resolve sd su) := fun _ _ _ => rfl
theorem step (d : Direction) : Statement (.step d) := fun _ _ _ => rfl
theorem pressPower : Statement .pressPower := fun _ _ _ => rfl
theorem bootSequence : Statement .bootSequence := fun _ _ _ => rfl

end Sys2Proof.Laws.Format
end

