-- ==== Sys2Proof/Tests/Slice0.lean ====
section
/-! SUPPORT. Tests, their expected results from spec/95_test_vectors.md (T_BLINK 50, T_SETTLE 90, T_POWER 200
there) or from the rule named; and a witness for the hypotheses of each obligation that has some. -/

namespace Sys2Proof.Tests

open Sys2Proof Sys2Proof.Machine Sys2Proof.Safety

/-- The parameters of the vectors; T_BOOT_ON, T_BOOT_OFF, VOL_INIT and OLD_INIT chosen here. -/
def P0 : Params where
  codeW := 8
  addrW := 8
  ctrlW := 1
  tSettle := 90
  tTail := 0
  tPower := 200
  tBlink := 50
  tBootOn := 300
  tBootOff := 70
  volInit := 6
  oldInit := 4
  muteOnNegative := .noop
  volW := none
  tick := 1

/-- The same with a finite volume register of 3 bits. -/
def P3 : Params := { P0 with volW := some 3 }

/-- An idle block with these volumes and tapes, at time 0. -/
def idle (vol old : Int) (env : List SenseLevel) (host : List HostMove) : State :=
  { State.resetOf P0 with seq := .idle, vol := vol, old := old, env := env, host := host }

/-- A word of the port with the ignored fields 0. -/
def word (code : Nat) : CmdWord := { code := code, address := 0, control := 0 }

/-- The sensed level 0. -/
abbrev lo : SenseLevel := .valid .low
/-- The sensed level 1. -/
abbrev hi : SenseLevel := .valid .high

/-- The next state of an outcome that is one. -/
def nextOf (o : Out) : Option State :=
  match o with
  | .next s => some s
  | .fault _ => none
  | .refused _ => none

/-- The fault of an outcome that is one. -/
def faultOf (o : Out) : Option Fault :=
  match o with
  | .fault r => some r
  | .next _ => none
  | .refused _ => none

/-- The line modes. -/
def modesOf (s : State) : Mode × Mode × Mode := (s.mode.vdown, s.mode.vup, s.mode.pwr)

/-- A block in the middle of a VOLUME_UP, before the line at position `k` of its STEP, driving phase 2. -/
def inStep (k : Fin 14) (host : List HostMove) : State :=
  { State.resetOf P0 with
    seq := .busy .volumeUp (.step k)
    mode := { vdown := .output, vup := .output, pwr := .input }
    lat := { vdown := .high, vup := .high, pwr := .low }
    vol := 3
    host := host }

/-! Well-formedness refuses what the block does not have. -/

theorem test_wf_recognized_code_is_not_unrecognized : (Instr.unrecognized 18).wf P0 = false := by decide
theorem test_wf_code_of_nine_bits : (Instr.unrecognized 256).wf P0 = false := by decide
theorem test_wf_unrecognized : (Instr.unrecognized 22).wf P0 = true := by decide
theorem test_wf_wait_of_no_delay : (Instr.wait 91).wf P0 = false := by decide
theorem test_wf_wait_settle : (Instr.wait 90).wf P0 = true := by decide
theorem test_wf_emit_of_a_side_effect : (Instr.emit (.act .high)).wf P0 = false := by decide
theorem test_wf_emit_log : (Instr.emit (.log 22)).wf P0 = true := by decide
theorem test_word_code_too_wide : (CmdWord.mk 256 0 0).fits P0 = false := by decide
theorem test_word_address_too_wide : (CmdWord.mk 18 256 0).fits P0 = false := by decide
theorem test_word_control_too_wide : (CmdWord.mk 18 0 2).fits P0 = false := by decide
theorem test_word_fits : (CmdWord.mk 255 255 1).fits P0 = true := by decide
theorem test_params_code_too_narrow : { P0 with codeW := 4 }.legal = false := by decide

/-! Decoding (95_test_vectors.md 2.1, Part 3; 30_encoding.md R81 to R83): words written out in bits. -/

theorem test_decode_volume_up : decodeTableWord 8 0b00010010 = some .volumeUp := by decide
theorem test_decode_volume_down : decodeTableWord 8 0b00010011 = some .volumeDown := by decide
theorem test_decode_mute : decodeTableWord 8 0b00010100 = some .mute := by decide
theorem test_decode_power : decodeTableWord 8 0b00010101 = some .power := by decide
theorem test_decode_unrecognized : decodeTableWord 8 0b11111111 = some (.unrecognized 255) := by decide
theorem test_decode_neighbours :
    decode (word 17) = .unrecognized 17 ∧ decode (word 22) = .unrecognized 22 := by decide
theorem test_decode_sixteen_bits : decodeTableWord 16 0b0000000100010010 = some (.unrecognized 274) := by decide
theorem test_decode_ignores_address_and_control :
    decode (unpackWord P0 0b1_11111111_00010010) = .volumeUp := by decide
theorem test_encode_packed : (encode .volumeDown 7 0).map (packWord P0) = some 0b0_00000111_00010011 := by decide
theorem test_assemble_program_three :
    ["CMD 22, 5, 1     ; (22, 5, 1)", "POWER ; (21, 0, 0)", "CMD 274"].map
      (fun l => (assembleLine l.toList).map fun o => o.map AsmLine.word) =
    [some (some ⟨22, 5, 1⟩), some (some ⟨21, 0, 0⟩), some (some ⟨274, 0, 0⟩)] := by decide
theorem test_assemble_other_lines :
    ["; a comment", "CMD 0x12,7", "CMD", "VOLUP 3"].map
      (fun l => (assembleLine l.toList).map fun o => o.map AsmLine.word) =
    [some none, some (some ⟨18, 7, 0⟩), none, none] := by decide

/-! The commands, from acceptance (95_test_vectors.md 2.4, 2.6, 2.7, 2.1). -/

/-- 2.4: the full history of a VOLUME_UP. -/
theorem test_volume_up_history :
    (nextOf (step (idle 3 0 [lo, lo] [.offer (word 18)]))).map (fun t => (t.vol, t.seq, t.history)) =
    some (4, .idle, [(0, .accept 18 0 0), (0, .act .high), (50, .act .low),
      (50, .mode .vdown .input), (50, .mode .vup .input), (50, .sample .vdown lo), (50, .sample .vup lo),
      (50, .latch .vdown .low), (50, .mode .vdown .output), (50, .latch .vup .low), (50, .mode .vup .output),
      (50, .latch .vdown .low), (50, .latch .vup .low), (140, .latch .vdown .high), (140, .latch .vup .low),
      (230, .latch .vdown .high), (230, .latch .vup .high), (320, .latch .vdown .low), (320, .latch .vup .high),
      (320, .mode .vdown .input), (320, .mode .vup .input), (320, .done .ok)]) := by decide

/-- W9: a VOLUME_UP on (INV, 0). -/
theorem test_volume_up_protocol_error :
    (nextOf (step (idle 3 0 [.inv, lo] [.offer (word 18)]))).map (fun t => (t.vol, t.seq, t.history.drop 3)) =
    some (3, .idle, [(50, .mode .vdown .input), (50, .mode .vup .input), (50, .sample .vdown .inv),
      (50, .sample .vup lo), (50, .done .protocolError)]) := by decide

/-- 2.4: VOLUME_DOWN from phase 3 (0,1), and below zero. -/
theorem test_volume_down :
    (nextOf (step (idle 0 0 [lo, hi] [.offer (word 19)]))).map
      (fun t => (t.vol, (t.lat.vdown, t.lat.vup), t.history.getLast?)) =
    some (-1, (.low, .low), some (320, .done .ok)) := by decide

/-- 2.6: MUTE from `vol` 1, `old` 9. -/
theorem test_mute_one_step :
    (nextOf (step (idle 1 9 [lo, lo] [.offer (word 20)]))).map (fun t => (t.vol, t.old, t.now, t.history.getLast?)) =
    some (0, 1, 320, some (320, .done .ok)) := by decide

/-- 2.6, Program 4: the second read-back of a MUTE from `vol` 3 is (INV, 1). -/
theorem test_mute_protocol_error :
    (nextOf (step (idle 3 0 [lo, lo, .inv, hi] [.offer (word 20)]))).map
      (fun t => (t.vol, t.old, t.now, t.history.getLast?)) =
    some (2, 3, 320, some (320, .done .protocolError)) := by decide

/-- 2.7: the history of a POWER. -/
theorem test_power_history :
    (nextOf (step (idle 7 0 [] [.offer (word 21)]))).map (fun t => (t.vol, drv t .pwr, t.history)) =
    some (7, .z,
      [(0, .accept 21 0 0), (0, .act .high), (50, .act .low), (50, .latch .pwr .low), (50, .mode .pwr .output),
       (250, .latch .pwr .high), (250, .mode .pwr .input), (250, .done .ok)]) := by decide

/-- 2.1, Program 3: code 274. -/
theorem test_unrecognized_history :
    (nextOf (step (idle 7 0 [] [.offer (word 274)]))).map (fun t => (t.seq, t.now, t.history)) =
    some (.idle, 0, [(0, .accept 274 0 0), (0, .log 274), (0, .done .unrecognized)]) := by decide

/-! The line primitives (2.5). -/

theorem test_set_mode_in :
    (nextOf (exec (.setModeIn .vdown) (inStep 5 []))).map (fun t => (modesOf t, t.lat.vdown, t.history)) =
    some ((.input, .output, .input), .high, [(0, .mode .vdown .input)]) := by decide

theorem test_set_mode_out_goes_high_directly :
    (nextOf (exec (.setModeOut .vup .high) (idle 0 0 [] []))).map
      (fun t => (drv t .vup, drv t .vdown, t.history)) =
    some (.driven .high, .z, [(0, .latch .vup .high), (0, .mode .vup .output)]) := by decide

theorem test_read_of_an_output_line :
    (nextOf (exec (.read .vup) (inStep 5 []))).map (fun t => (faulted t, ready t, t.history)) =
    some (some (.lineModeViolation .read .vup), false, []) := by decide

theorem test_read_of_an_input_line :
    (nextOf (exec (.read .vup) (idle 0 0 [hi, lo] []))).map (fun t => (t.sensed.vup, t.env, t.history)) =
    some (hi, [lo], [(0, .sample .vup hi)]) := by decide

theorem test_write_of_an_input_line :
    (nextOf (exec (.write .pwr .high) (idle 0 0 [] []))).map (fun t => (faulted t, t.lat.pwr, t.history)) =
    some (some (.lineModeViolation .write .pwr), .low, []) := by decide

theorem test_write_of_an_output_line :
    (nextOf (exec (.write .vdown .low) (inStep 5 []))).map (fun t => (drv t .vdown, drv t .vup, t.history)) =
    some (.driven .low, .driven .high, [(0, .latch .vdown .low)]) := by decide

theorem test_wait_zero : nextOf (exec (.wait 0) (inStep 5 [])) = some (inStep 5 []) := by decide

theorem test_wait : (nextOf (exec (.wait 90) (inStep 5 []))).map (fun t => (t.now, t.history)) = some (90, []) := by
  decide

theorem test_set_act :
    (nextOf (exec (.setAct .high) (idle 0 0 [] []))).map (fun t => (t.act, t.history)) =
    some (.high, [(0, .act .high)]) := by decide

theorem test_emit_changes_no_register :
    nextOf (exec (.emit (.log 22)) (idle 7 5 [] [])) =
    some { idle 7 5 [] [] with history := [(0, .log 22)] } := by decide

/-- R113: VDOWN before VUP. -/
theorem test_pair_read_order :
    (nextOf (exec (.pair .read) (idle 0 0 [hi, lo] []))).map (fun t => (t.sensed.vdown, t.sensed.vup, t.history)) =
    some (hi, lo, [(0, .sample .vdown hi), (0, .sample .vup lo)]) := by decide

theorem test_pair_set_mode_out_order :
    (nextOf (exec (.pair (.setModeOut .low .high)) (idle 0 0 [] []))).map (fun t => t.history) =
    some [(0, .latch .vdown .low), (0, .mode .vdown .output), (0, .latch .vup .high), (0, .mode .vup .output)] := by
  decide

/-! The composite operations. -/

/-- 41_dispatch.md R134. -/
theorem test_activity_pulse :
    (nextOf (exec .activityPulse (idle 0 0 [] []))).map (fun t => (t.act, t.now, t.history)) =
    some (.low, 50, [(0, .act .high), (50, .act .low)]) := by decide

/-- W1, 2.2. -/
theorem test_resolve_phases :
    [(lo, lo), (hi, lo), (hi, hi), (lo, hi)].map
      (fun x => (nextOf (exec (.resolve x.1 x.2) (inStep 2 []))).map State.p) =
    [some 0, some 1, some 2, some 3] := by decide

theorem test_resolve_invalid :
    (nextOf (exec (.resolve lo .inv) (inStep 2 []))).map (fun t => (t.seq, t.vol, t.history)) =
    some (.idle, 3, [(0, .done .protocolError)]) := by decide

/-- W5: STEP(-1) from (0,1) drives (0,1), (1,1), (1,0), (0,0). -/
theorem test_step_minus_from_phase_three :
    (nextOf (exec (.step .minus) (idle 4 0 [lo, hi] []))).map
      (fun t => (t.vol, (t.history.drop 8).filterMap fun x => match x.2 with
        | .latch _ b => some (x.1, b)
        | _ => none)) =
    some (3, [(0, .low), (0, .high), (90, .high), (90, .high), (180, .high), (180, .low),
      (270, .low), (270, .low)]) := by decide

/-- 60_exceptions.md R224. -/
theorem test_step_overflows_a_finite_register :
    (nextOf (exec (.step .plus) { idle 3 0 [lo, lo] [] with params := P3 })).map
      (fun t => (faulted t, t.vol, modesOf t)) =
    some (some .volumeOverflow, 3, (.input, .input, .input)) := by decide

/-- W10: PRESS_POWER from PWR in output mode. -/
theorem test_press_power_from_output :
    (nextOf (exec .pressPower { idle 0 0 [] [] with
        mode := ⟨.input, .input, .output⟩, lat := ⟨.low, .low, .high⟩ })).map (fun t => (modesOf t, t.lat.pwr)) =
    some ((.input, .input, .input), .high) := by decide

/-- 2.8: the boot sequence, with T_BOOT_ON 300 and T_BOOT_OFF 70. -/
theorem test_boot_sequence :
    (nextOf (exec .bootSequence (State.resetOf P0))).map (fun t => (ready t, t.now, t.history)) =
    some (true, 740, [(0, .act .high), (300, .act .low), (370, .act .high), (670, .act .low)]) := by decide

/-! The step (2.8). -/

theorem test_reset_in_the_middle_of_a_step :
    (nextOf (step (inStep 8 [.reset]))).map (fun t => (t.vol, t.old, modesOf t, t.seq)) =
    some (6, 4, (.input, .input, .input), .boot 0) := by decide

/-- A block in FAULT, with a host that still moves so. -/
def inFault (host : List HostMove) : State :=
  { State.resetOf P0 with seq := .fault (.lineModeViolation .read .vup), vol := 3, host := host }

/-- 60_exceptions.md R223, 70_reset_and_hazards.md R250: a fault state takes no word, is left by a reset, and is the
outcome once the host has no more moves. -/
theorem test_fault_state_takes_no_word :
    (nextOf (step (inFault [.offer (word 18), .reset]))) = some (inFault [.reset]) := by decide

theorem test_reset_leaves_a_fault_state :
    (nextOf (core.run 2 (inFault [.offer (word 18), .reset]))).map (fun t => (t.seq, t.vol, t.old)) =
    some (.boot 0, 6, 4) := by decide

theorem test_fault_is_the_outcome :
    faultOf (step (inFault [])) = some (.lineModeViolation .read .vup) := by decide

/-- A word withdrawn while the block is busy is never accepted; one that is held stays presented. -/
theorem test_words_while_busy :
    (nextOf (step (inStep 5 [.offer (word 19)]))).map (fun t => (t.host, t.history)) = some ([], []) ∧
    (nextOf (step (inStep 5 [.hold (word 19)]))).map (fun t => (t.host, t.history)) =
      some ([.hold (word 19)], []) := by decide

theorem test_fetch_word_runs_it :
    (nextOf (step ((State.resetOf P0).withFetchWord 8 0b00010101))).map (fun t => (t.cmd.code, t.history.getLast?)) =
    some (21, some (250, .done .ok)) := by decide

/-! Witnesses: states and operands that meet the hypotheses of the obligations. -/

theorem witness_CommandMapDecodes : ∃ code : Nat, code ≠ 18 ∧ code ≠ 19 ∧ code ≠ 20 ∧ code ≠ 21 :=
  ⟨17, by decide⟩

theorem witness_CodesAreNotTruncated : (50 : Nat) / 32 ≠ 0 ∧ (274 : Nat) / 32 ≠ 0 := by decide

theorem witness_PackedEncodingRoundTrip :
    P0.legal = true ∧ (Instr.unrecognized 255).isCommand = true ∧ (Instr.unrecognized 255).wf P0 = true ∧
    255 < 2 ^ P0.addrW ∧ 1 < 2 ^ P0.ctrlW := by decide

theorem witness_WordsAndCommandsCorrespond : (Instr.wait 90).isCommand = false := by decide

theorem witness_DrivesChangeOneLineAtATime :
    (1 : Fin 4).val = (0 : Fin 4).val + 1 ∧ (3 : Fin 4).val = (2 : Fin 4).val + 1 := by decide

theorem witness_ResetFromAnyState :
    resetDriven (inStep 8 [.reset]).host = true ∧ resetDriven (inFault [.reset]).host = true ∧
    ((inFault [.nothing]).seq = .fault (.lineModeViolation .read .vup) ∧
      resetDriven (inFault [.nothing]).host = false ∧ (inFault [.nothing]).host ≠ []) ∧
    resetDriven (inFault []).host = false ∧ (inFault []).host = [] := by decide

theorem witness_ResetInsidePowerEndsIt :
    (0 < 8 ∧ (idle 0 0 [] [.reset]).host = List.replicate 0 .nothing ++ .reset :: []) ∧
    (7 < 8 ∧ (idle 0 0 [] (List.replicate 7 .nothing ++ [.reset, .nothing])).host =
      List.replicate 7 .nothing ++ .reset :: [.nothing]) := by decide

/-- The reset state with a word held through the boot sequence. -/
def booting : State := { State.resetOf P0 with host := [.hold (word 18)] }

theorem witness_BootRunReachesIdle :
    booting.seq = .boot 0 ∧ noResetFor 8 booting.host = true ∧ ∃ t, core.run 7 booting = .next t :=
  ⟨rfl, by decide, _, rfl⟩

theorem witness_IdleStepAcceptsAndRuns :
    (idle 3 0 [] [.hold (word 18)]).seq = .idle ∧ presented (idle 3 0 [] [.hold (word 18)]).host = some (word 18) := by
  decide

theorem witness_IdleStepWaits :
    (idle 3 0 [] [.nothing]).seq = .idle ∧ presented (idle 3 0 [] [.nothing]).host = none ∧
    resetDriven (idle 3 0 [] [.nothing]).host = false := by decide

theorem witness_BusyStepRunsItsPrimitive :
    (inStep 6 []).seq = .busy .volumeUp (.step 6) ∧ resetDriven (inStep 6 []).host = false ∧
    actionInstr (actionAt .volumeUp (.step 6)) (inStep 6 []) = some (.pair (.write .high .low)) := by decide

theorem witness_BootStepRunsItsPrimitive :
    booting.seq = .boot 0 ∧ resetDriven booting.host = false := by decide

/-- A MUTE that has just been accepted. -/
def muting : State := { idle 1 9 [lo, lo] [] with seq := .busy .mute (.pulse 0) }

theorem witness_CommandIsTheRunOfItsSteps :
    muting.seq = .busy .mute (startPos .mute) ∧ ∃ t, core.run 18 muting = .next t := ⟨rfl, _, rfl⟩

theorem witness_WordsWhileBusyHaveNoEffect :
    (inStep 5 []).seq ≠ .idle ∧
    ∃ t, step { inStep 5 [] with host := [.hold (word 19), .nothing] } = .next t := ⟨by decide, _, rfl⟩

theorem witness_HostCannotDisturbACommand :
    Instr.mute.isCommand = true ∧ noReset [.hold (word 18)] ∧ noReset [.offer (word 99), .nothing] := by
  refine ⟨rfl, ?_, ?_⟩ <;> simp [noReset]

theorem witness_FlagsAndPadDrive :
    get (inStep 5 []).mode .vup = .output ∧ get (inStep 5 []).mode .pwr = .input := by decide

theorem witness_PairFormsAreTwoPrimitives :
    (idle 0 0 [lo, hi] []).mode.vdown = .input ∧ (inStep 5 []).mode.vdown = .output := by decide

theorem witness_SetModeInReleases : Line.vup ≠ Line.vdown ∧ get (idle 0 0 [] []).mode .vdown = .input := by decide

theorem witness_SetModeOutDrives : Line.pwr ≠ Line.vup := by decide

theorem witness_ReadSensesOrFaults :
    get (idle 0 0 [.inv] []).mode .vup = .input ∧ get (inStep 5 []).mode .vup = .output ∧
    (idle 0 0 [.inv] []).env = .inv :: [] := by decide

theorem witness_WriteDrivesOrFaults :
    get (inStep 5 []).mode .vdown = .output ∧ get (inStep 5 []).mode .pwr = .input ∧ Line.vup ≠ Line.vdown := by
  decide

theorem witness_PairFormsComplete :
    ((inStep 5 []).mode.vdown = .output ∧ (inStep 5 []).mode.vup = .output) ∧
    ((idle 0 0 [hi, .inv] []).mode.vdown = .input ∧ (idle 0 0 [hi, .inv] []).mode.vup = .input ∧
      (idle 0 0 [hi, .inv] []).env = hi :: .inv :: []) := by decide

theorem witness_ResolveRaisesProtocolError :
    (SenseLevel.inv = .inv ∨ lo = .inv) ∧ (hi = .inv ∨ SenseLevel.inv = .inv) := by decide

theorem witness_StepDrivesFourPhases :
    readPhase (idle 3 0 [lo, hi] []) = some 3 ∧
    volumeInRange (idle 3 0 [lo, hi] []).params.volW ((idle 3 0 [lo, hi] []).vol + dirInt .plus) = true := by decide

theorem witness_ReadBackTakesTwoAnswers : (inStep 0 []).env = [] ∧ (idle 0 0 [hi, .inv, lo] []).env = hi :: .inv :: [lo] := by
  decide

theorem witness_StepWithoutAPhaseDrivesNothing : readPhase (idle 3 0 [lo, .inv] []) = none := by decide

/-- A block with a 3-bit volume register and a read-back of phase 0. -/
def finite (vol : Int) : State := { idle vol 0 [lo, lo] [] with params := P3 }

theorem witness_FiniteVolumeFaultsOnOverflow :
    (readPhase (finite 3) = some 0 ∧ volumeInRange (finite 3).params.volW ((finite 3).vol + dirInt .plus) = false) ∧
    (noResetFor 17 (finite (-4)).host = true ∧ readPhase (afterPulse (finite (-4))) = some 0 ∧
      volumeInRange (finite (-4)).params.volW ((finite (-4)).vol + dirInt .minus) = false) ∧
    ((idle 3 0 [lo, lo] []).params.volW = none ∧ (idle 3 0 [lo, lo] []).seq ≠ .fault .volumeOverflow ∧
      ∃ t, exec (.step .plus) (idle 3 0 [lo, lo] []) = .next t) :=
  ⟨by decide, by decide, by decide, by decide, _, rfl⟩

/-- An idle block at time 10. -/
def atTen : State := { idle 0 0 [] [] with now := 10 }

theorem witness_PowerPadWaveform :
    atTen.mode.pwr = .input ∧ (∃ t, exec .pressPower atTen = .next t) ∧ 9 < atTen.now ∧
    (atTen.now ≤ 10 ∧ 10 < atTen.now + atTen.params.tPower) ∧
    (atTen.now ≤ 209 ∧ 209 < atTen.now + atTen.params.tPower) ∧ atTen.now + atTen.params.tPower ≤ 210 :=
  ⟨rfl, ⟨_, rfl⟩, by decide⟩

theorem witness_UnrecognizedLogsAndEnds : noResetFor 2 (idle 7 0 [] [.nothing, .offer (word 18), .reset]).host = true := by
  decide

theorem witness_VolumeUpCompletes :
    noResetFor 18 (idle 3 0 [hi, hi] []).host = true ∧ readPhase (afterPulse (idle 3 0 [hi, hi] [])) = some 2 ∧
    volumeInRange (idle 3 0 [hi, hi] []).params.volW ((idle 3 0 [hi, hi] []).vol + 1) = true := by decide

theorem witness_VolumeDownCompletes :
    noResetFor 18 (finite (-3)).host = true ∧ readPhase (afterPulse (finite (-3))) = some 0 ∧
    volumeInRange (finite (-3)).params.volW ((finite (-3)).vol - 1) = true := by decide

theorem witness_VolumeCommandsSurfaceProtocolError :
    noResetFor 6 (idle 3 0 [.inv, hi] []).host = true ∧ readPhase (afterPulse (idle 3 0 [.inv, hi] [])) = none ∧
    ((Direction.minus = .plus ∧ Instr.volumeDown = .volumeUp) ∨
      (Direction.minus = .minus ∧ Instr.volumeDown = .volumeDown)) := by decide

theorem witness_PowerCompletes : noResetFor 8 (idle 0 0 [] [.hold (word 19), .reset]).host = true := by decide

theorem witness_MuteRunsItsSteps :
    noReset (idle 2 0 [lo, lo] [.offer (word 19)]).host ∧ noReset (finite 3).host := by
  refine ⟨?_, ?_⟩ <;> simp [noReset, idle, finite]

theorem witness_MuteGoesToZero :
    noReset (idle 1 9 [hi, lo, .inv] []).host ∧ 0 < (idle 1 9 [hi, lo, .inv] []).vol ∧
    volumeInRange (idle 1 9 [hi, lo, .inv] []).params.volW (idle 1 9 [hi, lo, .inv] []).vol = true ∧
    (idle 1 9 [hi, lo, .inv] []).env = [Level.high, .low].map .valid ++ [.inv] ∧
    (([Level.high, .low].length : Nat) : Int) = 2 * (idle 1 9 [hi, lo, .inv] []).vol :=
  ⟨by simp [noReset, idle], by decide, by decide, by decide, by decide⟩

theorem witness_UnmuteRestoresTheVolume :
    noReset (idle 0 1 [hi, lo] []).host ∧ (idle 0 1 [hi, lo] []).vol = 0 ∧ 0 < (idle 0 1 [hi, lo] []).old ∧
    volumeInRange (idle 0 1 [hi, lo] []).params.volW (idle 0 1 [hi, lo] []).old = true ∧
    (idle 0 1 [hi, lo] []).env = [Level.high, .low].map .valid ++ [] ∧
    (([Level.high, .low].length : Nat) : Int) = 2 * (idle 0 1 [hi, lo] []).old :=
  ⟨by simp [noReset, idle], by decide, by decide, by decide, by decide, by decide⟩

theorem witness_MuteWithoutSteps :
    noResetFor 5 (idle 0 0 [] []).host = true ∧ ((idle 0 0 [] []).vol = 0 ∧ (idle 0 0 [] []).old ≤ 0) ∧
    noResetFor 5 (idle (-2) 3 [] []).host = true ∧
    ((idle (-2) 3 [] []).vol < 0 ∧ (idle (-2) 3 [] []).params.muteOnNegative = .noop) := by decide

/-- A block whose MUTE unmutes at a negative volume. -/
def unmuting : State :=
  { idle (-2) 1 [hi, lo] [] with params := { P0 with muteOnNegative := .unmute, volW := some 3 } }

theorem witness_MuteAtNegativeVolumeUnmutes :
    noReset unmuting.host ∧ unmuting.vol < 0 ∧ 0 < unmuting.old ∧ unmuting.params.muteOnNegative = .unmute ∧
    volumeInRange unmuting.params.volW unmuting.vol = true ∧
    volumeInRange unmuting.params.volW (unmuting.vol + unmuting.old) = true ∧
    unmuting.env = [Level.high, .low].map .valid ++ [] ∧
    (([Level.high, .low].length : Nat) : Int) = 2 * unmuting.old :=
  ⟨by simp [noReset, idle, unmuting], by decide, by decide, by decide, by decide, by decide, by decide, by decide⟩

/-- The mute branch with its last step (j = vol - 1) unresolved. -/
theorem witness_MuteAbortsOnProtocolError_mute :
    noReset (idle 2 0 [lo, lo, .inv, hi] []).host ∧
    volumeInRange (idle 2 0 [lo, lo, .inv, hi] []).params.volW 2 = true ∧
    (idle 2 0 [lo, lo, .inv, hi] []).env = [Level.low, .low].map .valid ++ .inv :: hi :: [] ∧
    [Level.low, .low].length = 2 * 1 ∧ (0 < (idle 2 0 [lo, lo, .inv, hi] []).vol ∧
      ((1 : Nat) : Int) < (idle 2 0 [lo, lo, .inv, hi] []).vol) :=
  ⟨by simp [noReset, idle], by decide, by decide, by decide, by decide⟩

/-- The unmute branch with its first step (j = 0) unresolved. -/
theorem witness_MuteAbortsOnProtocolError_unmute :
    noReset (idle 0 4 [lo, .inv] []).host ∧
    volumeInRange (idle 0 4 [lo, .inv] []).params.volW 4 = true ∧
    (idle 0 4 [lo, .inv] []).env = ([] : List Level).map .valid ++ lo :: .inv :: [] ∧
    ([] : List Level).length = 2 * 0 ∧ ((idle 0 4 [lo, .inv] []).vol = 0 ∧
      ((0 : Nat) : Int) < (idle 0 4 [lo, .inv] []).old) :=
  ⟨by simp [noReset, idle], by decide, by decide, by decide, by decide⟩

theorem witness_CommandsRunToCompletion :
    Instr.mute.isCommand = true ∧ noReset (idle 1 0 [lo, .inv] []).host ∧ noReset (finite 3).host :=
  ⟨rfl, by simp [noReset, idle], by simp [noReset, idle, finite]⟩

theorem witness_WhoWritesTheVolumeRegisters :
    noReset (idle 1 0 [lo, hi] []).host ∧ (∃ t, exec .power (idle 1 0 [lo, hi] []) = .next t) ∧
    (∃ t, exec (.step .plus) (idle 1 0 [lo, hi] []) = .next t) :=
  ⟨by simp [noReset, idle], ⟨_, rfl⟩, _, rfl⟩

/-- A safe state inside a STEP. -/
theorem witness_safe_inside_a_step : Inv (inStep 8 []) where
  old_nonneg := by decide
  modes := by intro l; cases l <;> decide
  act := by decide
  ordered := ⟨List.Pairwise.nil, by simp [inStep, State.resetOf]⟩
  loop := by intro k h; simp [inStep] at h
  fault := by intro r h; simp [inStep] at h

theorem witness_StepKeepsSafeStates : Inv (inStep 8 []) ∧ ∃ t, step (inStep 8 []) = .next t :=
  ⟨witness_safe_inside_a_step, _, rfl⟩

theorem witness_SafeStepsNeverViolateLineModes : Inv (inStep 8 []) := witness_safe_inside_a_step

theorem witness_SafeStepsAlwaysAnswer : Inv (inStep 8 []) ∧ (inStep 8 []).params.volW = none :=
  ⟨witness_safe_inside_a_step, rfl⟩

theorem witness_OneDoneForEachAccept :
    doneForEachAccept (idle 0 0 [] [.offer (word 22)]) ∧ ∃ t, step (idle 0 0 [] [.offer (word 22)]) = .next t :=
  ⟨by unfold doneForEachAccept; decide, _, rfl⟩

theorem witness_PadsStayAFunctionOfTheHistory :
    padsFollowHistory (idle 0 0 [] [.offer (word 21)]) ∧ ∃ t, step (idle 0 0 [] [.offer (word 21)]) = .next t :=
  ⟨fun l => ⟨.low, by cases l <;> rfl⟩, _, rfl⟩

/-- W5 from phase 0: what the two STEPs read. -/
def roundTrip : State := idle 3 0 [lo, lo, lo, hi] []

/-- The levels last driven before `roundTrip`: phase 0. -/
def phaseZero : PerLine Level := ⟨.low, .low, .low⟩

/-- Whether entry `k` of a history is not a SAMPLE other than QUIET_ENV says. -/
def quietAt (e0 : PerLine Level) (h : History) (k : Nat) : Bool :=
  match h[k]? with
  | some (_, .sample l v) => decide (v = .valid (lastDriven e0 l (h.take k)))
  | _ => true

/-- A decidable form of `quietHistory`, index by index. -/
theorem quietHistory_of_index (e0 : PerLine Level) (h : History)
    (hk : (List.range h.length).all (quietAt e0 h) = true) : quietHistory e0 h := by
  intro before t l v after e
  have := List.all_eq_true.1 hk before.length (by rw [e]; simp)
  rw [e] at this
  simpa [quietAt] using this

theorem witness_RoundTripUnderQuietEnvironment :
    ∃ t u, exec (.step .plus) roundTrip = .next t ∧ exec (.step .minus) t = .next u ∧
      faulted t = none ∧ faulted u = none ∧ quietHistory phaseZero u.history :=
  ⟨_, _, rfl, rfl, rfl, rfl, quietHistory_of_index _ _ (by rfl)⟩

end Sys2Proof.Tests
end

section
/-! The pads stay a function of the history (00_scope.md R14, 10_state.md R42). Every write to a mode or a
latch appends the MODE or LATCH event that replays as that write; this is shown once for each operation,
then for a line of a pseudocode, and `step_keeps` carries it to every step. -/

namespace Sys2Proof.Safety

open Sys2Proof.Machine

theorem get_set_eq_ite {α : Type} (x : PerLine α) (v : α) (l l' : Line) :
    get (set x l v) l' = if l = l' then v else get x l' := by
  by_cases h : l = l'
  · simp [h]
  · simp [h, get_set_other x v (Ne.symm h)]

section Replay
variable (l : Line) (ml : Mode × Level) (n : Nat)

@[simp] theorem padReplay_nil : padReplay l ml [] = ml := rfl

@[simp] theorem padReplay_cons (e : Event) (h : History) :
    padReplay l ml ((n, e) :: h) = padReplay l (padEvent l ml e) h := rfl

@[simp] theorem padEvent_mode (l' : Line) (m : Mode) :
    padEvent l ml (.mode l' m) = (if l' = l then m else ml.1, ml.2) := by
  by_cases h : l' = l <;> simp [padEvent, h]

@[simp] theorem padEvent_latch (l' : Line) (b : Level) :
    padEvent l ml (.latch l' b) = (ml.1, if l' = l then b else ml.2) := by
  by_cases h : l' = l <;> simp [padEvent, h]

theorem padReplay_append (h h' : History) :
    padReplay l ml (h ++ h') = padReplay l (padReplay l ml h) h' := List.foldl_append

end Replay

/-- The pads follow the history from `s` to `t` when the events appended between them replay, on every
line, from the mode and latch in `s` to those in `t`. -/
theorem padsFollowHistory_of_append {s t : State} {es : History} (hs : padsFollowHistory s)
    (hh : t.history = s.history ++ es)
    (hes : ∀ l, padReplay l (get s.mode l, get s.lat l) es = (get t.mode l, get t.lat l)) :
    padsFollowHistory t := by
  intro l
  obtain ⟨b, hb⟩ := hs l
  exact ⟨b, by rw [hh, padReplay_append, hb, hes]⟩

theorem padsFollowHistory_resetOf (P : Params) : padsFollowHistory (State.resetOf P) :=
  fun l => ⟨.low, by cases l <;> rfl⟩

section Operations
variable {s : State} (hs : padsFollowHistory s)
include hs

/-- An event that is neither a MODE nor a LATCH is on no pad. -/
theorem padsFollowHistory_emit {e : Event} (he : ∀ l ml, padEvent l ml e = ml) :
    padsFollowHistory (emit e s) :=
  padsFollowHistory_of_append hs (emit_history e s) fun l => he l _

theorem padsFollowHistory_setModeIn (l : Line) : padsFollowHistory (setModeIn l s) :=
  padsFollowHistory_of_append hs (setModeIn_history l s) fun l' => by
    simp [get_set_eq_ite]

theorem padsFollowHistory_setModeOut (l : Line) (b : Level) : padsFollowHistory (setModeOut l b s) :=
  padsFollowHistory_of_append hs ((setModeOut_history l b s).trans (List.append_assoc ..)) fun l' => by
    simp [get_set_eq_ite]

theorem padsFollowHistory_drive (l : Line) (b : Level) : padsFollowHistory (drive l b s) :=
  padsFollowHistory_of_append hs (drive_history l b s) fun l' => by
    simp [get_set_eq_ite]

theorem padsFollowHistory_sense (l : Line) : padsFollowHistory (sense l s) :=
  padsFollowHistory_of_append hs (sense_history l s) fun _ => rfl

/-- The two LATCH events of a phase drive are the two latches it writes. -/
theorem padsFollowHistory_drivePair (ab : Level × Level) :
    padsFollowHistory { s with
      lat := { s.lat with vdown := ab.1, vup := ab.2 }
      history := s.history ++ driveEvents s.now ab } :=
  padsFollowHistory_of_append hs rfl fun l => by cases l <;> rfl

theorem padsFollowHistory_muteBranch : padsFollowHistory (muteBranch s) := by
  obtain ⟨-, e⟩ | ⟨-, e⟩ | ⟨-, -, e⟩ := muteBranch_cases s <;> rw [e] <;> exact hs

theorem padsFollowHistory_advance (c : Cmd) (k : Pos) : padsFollowHistory (advance c k s) := by
  obtain ⟨q, d, i, e⟩ := advance_eq c k s
  rw [e]
  exact hs

theorem padsFollowHistory_advanceBoot (k : Fin 8) : padsFollowHistory (advanceBoot k s) := by
  obtain ⟨q, e⟩ := advanceBoot_eq k s
  rw [e]
  exact hs

end Operations

/-- A line that raises nothing: its writes to `mode` and `lat` are the ones its events replay. -/
theorem padsFollowHistory_of_lineEffect {a : Action} {s t : State} (hs : padsFollowHistory s)
    (h : lineEffect a s t) : padsFollowHistory t := by
  cases a with
  | setAct b => subst h; exact padsFollowHistory_emit (s := { s with act := b }) hs fun _ _ => rfl
  | wait d => subst h; exact hs
  | lineIn l => subst h; exact padsFollowHistory_setModeIn hs l
  | lineOut l b => subst h; exact padsFollowHistory_setModeOut hs l b
  | lineWrite l b => obtain ⟨-, rfl⟩ := h; exact padsFollowHistory_drive hs l b
  | pairIn => subst h; exact padsFollowHistory_setModeIn (padsFollowHistory_setModeIn hs _) _
  | pairRead => obtain ⟨-, -, rfl⟩ := h; exact padsFollowHistory_sense (padsFollowHistory_sense hs _) _
  | resolve => obtain ⟨p, -, rfl⟩ := h; exact hs
  | pairOut => subst h; exact padsFollowHistory_setModeOut (padsFollowHistory_setModeOut hs _ _) _ _
  | drive off => obtain ⟨-, -, rfl⟩ := h; exact padsFollowHistory_drivePair (s := { s with off := off }) hs _
  | addVolume => obtain ⟨-, rfl⟩ := h; exact hs
  | branch => subst h; exact padsFollowHistory_muteBranch hs
  | log => subst h; exact padsFollowHistory_emit hs fun _ _ => rfl
  | done r => subst h; exact padsFollowHistory_emit hs fun _ _ => rfl

/-- A line that raises: at most VDOWN has been sensed or driven before the fault, with its event. -/
theorem padsFollowHistory_of_raiseEffect {a : Action} {s t : State} (hs : padsFollowHistory s)
    (h : RaiseEffect s a t) : padsFollowHistory t := by
  cases h with
  | unresolved => exact padsFollowHistory_emit hs fun _ _ => rfl
  | readUp => exact padsFollowHistory_sense hs _
  | driveUp off => exact padsFollowHistory_drive (s := { s with off := off }) hs _ _
  | write | readDown | driveDown | overflow => exact hs

theorem padsFollowHistory_afterLine {s : State} (hs : padsFollowHistory s) (a : Action) :
    padsFollowHistory (afterLine a s) := by
  cases hr : raises a s with
  | true => exact padsFollowHistory_of_raiseEffect hs (afterLine_raise hr)
  | false => exact padsFollowHistory_of_lineEffect hs (afterLine_effect hr)

theorem padsFollowHistory_tick :
    ∀ s t : State, padsFollowHistory s → tick s = .next t → padsFollowHistory t :=
  tick_keeps
    (hboot := fun _ k hs _ => padsFollowHistory_advanceBoot (padsFollowHistory_afterLine hs _) k)
    (hraise := fun _ _ _ hs _ _ => padsFollowHistory_afterLine hs _)
    (hline := fun _ c k hs _ _ => padsFollowHistory_advance (padsFollowHistory_afterLine hs _) c k)

theorem padsFollowHistory_accept {s : State} (hs : padsFollowHistory s) (w : CmdWord) :
    padsFollowHistory (accept w s) :=
  padsFollowHistory_of_append hs (accept_history w s) fun _ => rfl

/-- Settles O59: resets begin an empty history on released lines, and ticks and acceptance record every
write to a pad, so `step_keeps` gives it for every step, also one that runs a whole command. -/
theorem padsStayAFunctionOfTheHistory : Obligations.PadsStayAFunctionOfTheHistory :=
  step_keeps
    (hreset := fun s _ => padsFollowHistory_resetOf s.params)
    (hhost := fun _ _ hs => hs)
    (htick := padsFollowHistory_tick)
    (haccept := fun _ w hs _ => padsFollowHistory_accept hs w)

end Sys2Proof.Safety
end

section
/-! What a line of a pseudocode does to the lines' modes, to ACT, to the loop and to the volume registers, and
where the sequencer goes after it (10_state.md R31 to R35, R43). -/

namespace Sys2Proof.Machine

open Sys2Proof.Safety

/-- From `s` to `t` the parameters are the same, `old` is unless `o`, and `vol` is unless `v`. -/
def RegistersKept (o v : Prop) (s t : State) : Prop :=
  t.params = s.params ∧ (¬ o → t.old = s.old) ∧ (¬ v → t.vol = s.vol)

section RegistersKept
variable {o v o' v' : Prop} {s t u : State}

theorem RegistersKept.trans (h : RegistersKept o v s t) (h' : RegistersKept o v t u) :
    RegistersKept o v s u :=
  ⟨h'.1.trans h.1, fun ho => (h'.2.1 ho).trans (h.2.1 ho), fun hv => (h'.2.2 hv).trans (h.2.2 hv)⟩

theorem RegistersKept.mono (h : RegistersKept o v s t) (ho : o → o') (hv : v → v') :
    RegistersKept o' v' s t :=
  ⟨h.1, fun n => h.2.1 (mt ho n), fun n => h.2.2 (mt hv n)⟩

theorem registersKept_of_eq (hp : t.params = s.params) (ho : t.old = s.old) (hv : t.vol = s.vol) :
    RegistersKept o v s t := ⟨hp, fun _ => ho, fun _ => hv⟩

theorem registersKept_refl (s : State) : RegistersKept o v s s := registersKept_of_eq rfl rfl rfl

end RegistersKept

/-- A line writes `old` only as MUTE's branch, `vol` only as `vol <- vol + d`, and never the parameters. -/
theorem registersKept_afterLine (a : Action) (s : State) :
    RegistersKept (a = .branch) (a = .addVolume) s (afterLine a s) := by
  cases hr : raises a s with
  | true =>
    have h := afterLine_raise hr
    generalize afterLine a s = t at h
    cases h <;> exact registersKept_of_eq rfl rfl rfl
  | false =>
    have h := afterLine_effect hr
    generalize afterLine a s = t at h
    cases a with
    | branch =>
      subst h
      obtain ⟨-, e⟩ | ⟨-, e⟩ | ⟨-, -, e⟩ := muteBranch_cases s <;> rw [e] <;>
        exact ⟨rfl, fun h => absurd rfl h, fun _ => rfl⟩
    | addVolume => obtain ⟨-, rfl⟩ := h; exact ⟨rfl, fun _ => rfl, fun h => absurd rfl h⟩
    | lineWrite => obtain ⟨-, rfl⟩ := h; exact registersKept_of_eq rfl rfl rfl
    | pairRead | drive => obtain ⟨-, -, rfl⟩ := h; exact registersKept_of_eq rfl rfl rfl
    | resolve => obtain ⟨p, -, rfl⟩ := h; exact registersKept_of_eq rfl rfl rfl
    | _ => subst h; exact registersKept_of_eq rfl rfl rfl

theorem afterLine_old {a : Action} (h : a ≠ .branch) (s : State) : (afterLine a s).old = s.old :=
  (registersKept_afterLine a s).2.1 h

/-- MUTE's count and index are written by no line but MUTE's branch. -/
theorem afterLine_loop {a : Action} {s : State} (hr : raises a s = false) (ha : a ≠ .branch) :
    (afterLine a s).i = s.i ∧ (afterLine a s).n = s.n := by
  have h := afterLine_effect hr
  generalize afterLine a s = t at h
  cases a with
  | lineWrite | addVolume => obtain ⟨-, rfl⟩ := h; simp
  | pairRead | drive => obtain ⟨-, -, rfl⟩ := h; simp
  | resolve => obtain ⟨p, -, rfl⟩ := h; simp
  | branch => exact absurd rfl ha
  | _ => subst h; simp

/-- MUTE's branch, RESOLVE and `vol <- vol + d` stand at one position each. -/
theorem actionAt_eq_iff (c : Cmd) (k : Pos) :
    (actionAt c k = .branch ↔ k = .branch) ∧ (actionAt c k = .resolve ↔ k = .step 2) ∧
      (actionAt c k = .addVolume ↔ k = .step 13) := by
  cases k with
  | pulse j | step j | power j => fin_cases j <;> simp [actionAt, pulseCode, stepCode, powerCode]
  | _ => simp [actionAt]

theorem actionAt_eq_branch {c : Cmd} {k : Pos} : actionAt c k = .branch ↔ k = .branch :=
  (actionAt_eq_iff c k).1

theorem actionAt_eq_resolve {c : Cmd} {k : Pos} : actionAt c k = .resolve ↔ k = .step 2 :=
  (actionAt_eq_iff c k).2.1

theorem actionAt_eq_addVolume {c : Cmd} {k : Pos} : actionAt c k = .addVolume ↔ k = .step 13 :=
  (actionAt_eq_iff c k).2.2

/-! Where the sequencer goes. -/

/-- The first position of a command's body (41_dispatch.md R134, R135). -/
def bodyPos : Cmd → Pos
  | .volumeUp => .step 0
  | .volumeDown => .step 0
  | .mute => .branch
  | .power => .power 0
  | .unrecognized => .done

@[simp] theorem startBody_seq (c : Cmd) (s : State) : (startBody c s).seq = .busy c (bodyPos c) := by
  cases c <;> rfl

/-- The positions at which the sequencer can be after position `k` of command `c`. -/
inductive Follows (c : Cmd) : Pos → Seq → Prop
  | log : Follows c .log (.busy c .done)
  | pulse (j : Fin 2) : Follows c (.pulse j.castSucc) (.busy c (.pulse j.succ))
  | body {k : Pos} (h : bodyPos c = k) : Follows c (.pulse 2) (.busy c k)
  | loop : Follows c .branch (.busy c (.step 0))
  | noLoop : Follows c .branch (.busy c .done)
  | step (j : Fin 13) : Follows c (.step j.castSucc) (.busy c (.step j.succ))
  | again (h : c = .mute) : Follows c (.step 13) (.busy c (.step 0))
  | stepped : Follows c (.step 13) (.busy c .done)
  | power (j : Fin 3) : Follows c (.power j.castSucc) (.busy c (.power j.succ))
  | powered : Follows c (.power 3) (.busy c .done)
  | done : Follows c .done .idle

theorem advance_pulse (c : Cmd) (j : Fin 2) (s : State) :
    advance c (.pulse j.castSucc) s = { s with seq := .busy c (.pulse j.succ) } :=
  dif_pos (Nat.succ_lt_succ j.isLt)

theorem advance_step (c : Cmd) (j : Fin 13) (s : State) :
    advance c (.step j.castSucc) s = { s with seq := .busy c (.step j.succ) } :=
  dif_pos (Nat.succ_lt_succ j.isLt)

theorem advance_power (c : Cmd) (j : Fin 3) (s : State) :
    advance c (.power j.castSucc) s = { s with seq := .busy c (.power j.succ) } :=
  dif_pos (Nat.succ_lt_succ j.isLt)

theorem advance_lastStep (c : Cmd) (s : State) : advance c (.step 13) s = afterStep c s := rfl

theorem advance_lastPulse (c : Cmd) (s : State) : advance c (.pulse 2) s = startBody c s := rfl

theorem advance_branch (c : Cmd) (s : State) : advance c .branch s = startLoop c s := rfl

theorem afterStep_cases (c : Cmd) (s : State) :
    (c = .mute ∧ s.i < s.n ∧ afterStep c s = { s with i := s.i + 1, seq := .busy c (.step 0) }) ∨
      afterStep c s = { s with seq := .busy c .done } := by
  cases c with
  | mute =>
    by_cases h : s.i < s.n
    · exact .inl ⟨rfl, h, if_pos h⟩
    · exact .inr (if_neg h)
  | _ => exact .inr rfl

theorem follows_advance (c : Cmd) (k : Pos) (s : State) : Follows c k (advance c k s).seq := by
  cases k with
  | log => exact .log
  | pulse j =>
    cases j using Fin.lastCases with
    | last => rw [show Fin.last 2 = 2 from rfl, advance_lastPulse, startBody_seq]; exact .body rfl
    | cast j => rw [advance_pulse]; exact .pulse j
  | branch =>
    rw [advance_branch, startLoop]
    split
    · exact .noLoop
    · exact .loop
  | step j =>
    cases j using Fin.lastCases with
    | last =>
      rw [show Fin.last 13 = 13 from rfl, advance_lastStep]
      obtain ⟨hc, -, e⟩ | e := afterStep_cases c s <;> rw [e]
      · exact .again hc
      · exact .stepped
    | cast j => rw [advance_step]; exact .step j
  | power j =>
    cases j using Fin.lastCases with
    | last => exact .powered
    | cast j => rw [advance_power]; exact .power j
  | done => exact .done

section AdvanceFields
variable (c : Cmd) (k : Pos) (s : State)

@[simp] theorem advance_old : (advance c k s).old = s.old := by
  obtain ⟨q, d, i, e⟩ := advance_eq c k s
  rw [e]

@[simp] theorem advance_vol : (advance c k s).vol = s.vol := by
  obtain ⟨q, d, i, e⟩ := advance_eq c k s
  rw [e]

@[simp] theorem advance_params : (advance c k s).params = s.params := by
  obtain ⟨q, d, i, e⟩ := advance_eq c k s
  rw [e]

/-- FAULT is entered by the line that raises, never by what follows a line. -/
theorem advance_seq_ne_fault (r : Fault) : (advance c k s).seq ≠ .fault r := by
  intro h
  cases h ▸ follows_advance c k s

theorem advanceBoot_seq (k : Fin 8) :
    (∃ j, (advanceBoot k s).seq = .boot j) ∨ (advanceBoot k s).seq = .idle := by
  unfold advanceBoot
  split
  · exact .inl ⟨_, rfl⟩
  · exact .inr rfl

end AdvanceFields

/-! The lines' modes and ACT. -/

/-- The modes of the lines and the level of ACT. -/
def pins (s : State) : PerLine Mode × Level := (s.mode, s.act)

/-- The modes and the level of ACT that a safe state has at position `q`. -/
def pinsAt (q : Seq) : PerLine Mode × Level :=
  (⟨lineModeAt q .vdown, lineModeAt q .vup, lineModeAt q .pwr⟩, actAt q)

theorem perLine_ext {α : Type} {x y : PerLine α} (h : ∀ l, get x l = get y l) : x = y := by
  cases x; cases y
  exact PerLine.mk.injEq .. ▸ ⟨h .vdown, h .vup, h .pwr⟩

theorem pins_eq_pinsAt {s : State} {q : Seq} :
    pins s = pinsAt q ↔ (∀ l, get s.mode l = lineModeAt q l) ∧ s.act = actAt q := by
  have hq : ∀ l, get (pinsAt q).1 l = lineModeAt q l := by intro l; cases l <;> rfl
  constructor
  · intro h
    obtain ⟨hm, ha⟩ := Prod.mk.inj h
    exact ⟨fun l => by rw [hm]; exact hq l, ha⟩
  · rintro ⟨hm, ha⟩
    exact Prod.ext (perLine_ext fun l => (hm l).trans (hq l).symm) ha

/-- What a line does to them. -/
def pinsAfter (a : Action) (x : PerLine Mode × Level) : PerLine Mode × Level :=
  match a with
  | .setAct b => (x.1, b)
  | .lineIn l => (set x.1 l .input, x.2)
  | .lineOut l _ => (set x.1 l .output, x.2)
  | .pairIn => ({ x.1 with vdown := .input, vup := .input }, x.2)
  | .pairOut => ({ x.1 with vdown := .output, vup := .output }, x.2)
  | _ => x

theorem pins_afterLine {a : Action} {s : State} (hr : raises a s = false) :
    pins (afterLine a s) = pinsAfter a (pins s) := by
  have h := afterLine_effect hr
  generalize afterLine a s = t at h
  cases a with
  | lineWrite | addVolume => obtain ⟨-, rfl⟩ := h; rfl
  | pairRead | drive => obtain ⟨-, -, rfl⟩ := h; rfl
  | resolve => obtain ⟨p, -, rfl⟩ := h; rfl
  | branch => subst h; obtain ⟨-, e⟩ | ⟨-, e⟩ | ⟨-, -, e⟩ := muteBranch_cases s <;> rw [e] <;> rfl
  | _ => subst h; rfl

@[simp] theorem pins_advance (c : Cmd) (k : Pos) (s : State) : pins (advance c k s) = pins s := by
  obtain ⟨q, d, i, e⟩ := advance_eq c k s
  rw [e]; rfl

/-- A line takes the modes and ACT of its position to those of whatever position follows. -/
theorem pinsAfter_pinsAt {c : Cmd} {k : Pos} {q : Seq} (h : Follows c k q) :
    pinsAfter (actionAt c k) (pinsAt (.busy c k)) = pinsAt q := by
  cases h with
  | pulse j | step j | power j => fin_cases j <;> rfl
  | body h => subst h; cases c <;> rfl
  | _ => rfl

theorem pinsAfter_pinsAt_boot (k : Fin 8) (s : State) :
    pinsAfter (bootCode.get k) (pinsAt (.boot k)) = pinsAt (advanceBoot k s).seq := by
  fin_cases k <;> rfl

@[simp] theorem pins_advanceBoot (k : Fin 8) (s : State) : pins (advanceBoot k s) = pins s := by
  obtain ⟨q, e⟩ := advanceBoot_eq k s
  rw [e]; rfl

/-- The lines that a line of code reads are released, and those that it writes are driven
(40_line_primitives.md R103, R104). -/
def linesReady (a : Action) (m : PerLine Mode) : Prop :=
  match a with
  | .lineWrite l _ => get m l = .output
  | .pairRead => m.vdown = .input ∧ m.vup = .input
  | .drive _ => m.vdown = .output ∧ m.vup = .output
  | _ => True

theorem linesReady_pinsAt (c : Cmd) (k : Pos) : linesReady (actionAt c k) (pinsAt (.busy c k)).1 := by
  cases k with
  | pulse j | step j | power j =>
    fin_cases j <;>
      simp [linesReady, actionAt, pulseCode, stepCode, powerCode, pinsAt, lineModeAt]
  | _ => trivial

/-- A line of code whose lines are ready raises nothing but RESOLVE's outcome or the overflow of a finite
VOL_W (60_exceptions.md R221, R224). -/
theorem raise_of_linesReady {a : Action} {s : State} (hl : linesReady a s.mode) (hr : raises a s = true) :
    (a = .resolve ∧ afterLine a s = endCommand .protocolError s) ∨
      (a = .addVolume ∧ s.params.volW ≠ none ∧ afterLine a s = enterFault .volumeOverflow s) := by
  have h := afterLine_raise hr
  generalize afterLine a s = t at h ⊢
  cases h with
  | unresolved => exact .inl ⟨rfl, rfl⟩
  | overflow h =>
    have hw : s.params.volW ≠ none := by intro hw; simp [hw] at h
    exact .inr ⟨rfl, hw, rfl⟩
  | write l b h => simp [linesReady, h] at hl
  | readDown h | readUp h | driveDown off h | driveUp off h => simp [linesReady, h] at hl

end Sys2Proof.Machine
end

section
/-! The safe states (10_state.md R48, R49; 20_memory.md R67; 60_exceptions.md R235): they hold at reset, and
every line, with what follows it, keeps them; `step_keeps` carries that to every step. -/

namespace Sys2Proof.Safety

open Sys2Proof.Machine

/-! The history stays in the order of time (20_memory.md R67). -/

section Ordered
variable {s : State} (hs : orderedHistory s)
include hs

theorem orderedHistory_emit (e : Event) : orderedHistory (emit e s) := by
  obtain ⟨hsorted, hpast⟩ := hs
  refine ⟨?_, ?_⟩
  · rw [emit_history, List.pairwise_append]
    exact ⟨hsorted, List.pairwise_singleton .., by simpa using hpast⟩
  · intro x hx
    rw [emit_history, List.mem_append, List.mem_singleton] at hx
    obtain hx | rfl := hx
    · exact hpast x hx
    · exact le_rfl

theorem orderedHistory_wait (t : Nat) : orderedHistory (wait t s) :=
  ⟨hs.1, fun x hx => (hs.2 x hx).trans (Nat.le_add_right ..)⟩

theorem orderedHistory_muteBranch : orderedHistory (muteBranch s) := by
  obtain ⟨-, e⟩ | ⟨-, e⟩ | ⟨-, -, e⟩ := muteBranch_cases s <;> rw [e] <;> exact hs

theorem orderedHistory_setModeIn (l : Line) : orderedHistory (setModeIn l s) :=
  orderedHistory_emit (s := { s with mode := set s.mode l .input }) hs _

theorem orderedHistory_setModeOut (l : Line) (b : Level) : orderedHistory (setModeOut l b s) :=
  orderedHistory_emit (orderedHistory_emit
    (s := { s with lat := set s.lat l b, mode := set s.mode l .output }) hs _) _

theorem orderedHistory_sense (l : Line) : orderedHistory (sense l s) :=
  orderedHistory_emit (s := { s with sensed := set s.sensed l (answer s l), env := s.env.tail }) hs _

theorem orderedHistory_drive (l : Line) (b : Level) : orderedHistory (drive l b s) :=
  orderedHistory_emit (s := { s with lat := set s.lat l b }) hs _

theorem orderedHistory_readLine (l : Line) : orderedHistory (readLine l s) := by
  cases h : get s.mode l with
  | input => rw [readLine_of_input h]; exact orderedHistory_sense hs l
  | output => rw [readLine_of_output h]; exact hs

theorem orderedHistory_writeLine (l : Line) (b : Level) : orderedHistory (writeLine l b s) := by
  cases h : get s.mode l with
  | input => rw [writeLine_of_input h]; exact hs
  | output => rw [writeLine_of_output h]; exact orderedHistory_drive hs l b

theorem orderedHistory_advance (c : Cmd) (k : Pos) : orderedHistory (advance c k s) := by
  obtain ⟨q, d, i, e⟩ := advance_eq c k s
  rw [e]
  exact hs

theorem orderedHistory_advanceBoot (k : Fin 8) : orderedHistory (advanceBoot k s) := by
  obtain ⟨q, e⟩ := advanceBoot_eq k s
  rw [e]
  exact hs

theorem orderedHistory_afterLine (a : Action) : orderedHistory (afterLine a s) := by
  cases a with
  | setAct b => exact orderedHistory_emit (s := { s with act := b }) hs _
  | wait d => exact orderedHistory_wait hs _
  | lineIn l => exact orderedHistory_setModeIn hs l
  | lineOut l b => exact orderedHistory_setModeOut hs l b
  | lineWrite l b => exact orderedHistory_writeLine hs l b
  | pairIn => exact orderedHistory_setModeIn (orderedHistory_setModeIn hs _) _
  | pairRead =>
    rw [afterLine_pairRead, readPair]
    split
    · exact orderedHistory_readLine (orderedHistory_sense hs _) _
    · exact hs
  | resolve =>
    cases hp : resolvePair s.sensed.vdown s.sensed.vup with
    | none => rw [afterLine_resolve_none hp]; exact orderedHistory_emit hs _
    | some p => rw [afterLine_resolve_some hp]; exact hs
  | pairOut => exact orderedHistory_setModeOut (orderedHistory_setModeOut hs _ _) _ _
  | drive off =>
    rw [afterLine_drive, writePair]
    split
    · exact orderedHistory_writeLine (orderedHistory_drive (s := { s with off := off }) hs _ _) _ _
    · exact hs
  | addVolume =>
    rw [afterLine_addVolume, addVolume]
    split <;> exact hs
  | branch => exact orderedHistory_muteBranch hs
  | log => exact orderedHistory_emit hs _
  | done r => exact orderedHistory_emit hs _

end Ordered

/-- MUTE's branch saves a positive volume, and no other line writes `old` (10_state.md R48). -/
theorem old_nonneg_afterLine {s : State} (hs : 0 ≤ s.old) (a : Action) : 0 ≤ (afterLine a s).old := by
  by_cases ha : a = .branch
  · subst ha
    rw [afterLine_branch]
    obtain ⟨hv, e⟩ | ⟨-, e⟩ | ⟨-, -, e⟩ := muteBranch_cases s <;> rw [e]
    · exact hv.le
    · exact hs
    · exact hs
  · rw [afterLine_old ha]
    exact hs

/-! MUTE's loop index (43_mute.md R180). -/

/-- The loop starts, if it does, at 1 with the count that the branch has written. -/
theorem loopIndexLegal_branch (c : Cmd) (s : State) : loopIndexLegal (advance c .branch (muteBranch s)) := by
  intro k hk
  rw [advance_branch, startLoop, muteSteps_muteBranch] at hk ⊢
  split at hk
  · simp at hk
  · next h0 =>
    have hn : (muteBranch s).n = muteSteps s := by
      obtain ⟨-, e⟩ | ⟨-, e⟩ | ⟨-, h, -⟩ := muteBranch_cases s
      · rw [e]
      · rw [e]
      · exact absurd h h0
    rw [if_neg h0]
    exact ⟨le_rfl, hn ▸ Nat.one_le_iff_ne_zero.2 h0⟩

/-- Inside the loop the index moves on only while it is below the count. -/
theorem loopIndexLegal_advance {c : Cmd} {k : Pos} {s : State} (hk : k ≠ .branch)
    (hs : ∀ j, Seq.busy c k = .busy .mute (.step j) → 1 ≤ s.i ∧ s.i ≤ s.n) :
    loopIndexLegal (advance c k s) := by
  intro j' hj'
  have h := hj' ▸ follows_advance c k s
  cases h with
  | body h => simp [bodyPos] at h
  | loop => exact absurd rfl hk
  | step j =>
    rw [advance_step]
    exact hs _ rfl
  | again =>
    rw [advance_lastStep] at hj' ⊢
    obtain ⟨-, hlt, e⟩ | e := afterStep_cases .mute s
    · rw [e]
      exact ⟨Nat.le_add_left .., hlt⟩
    · rw [e] at hj'
      simp at hj'

/-! The invariant. -/

theorem pins_of_inv {s : State} (hs : Inv s) : pins s = pinsAt s.seq := pins_eq_pinsAt.2 ⟨hs.modes, hs.act⟩

/-- The clauses of the invariant, those of the modes and of ACT taken together. -/
theorem inv_of_pins {s : State} (hold : 0 ≤ s.old) (hpins : pins s = pinsAt s.seq)
    (hord : orderedHistory s) (hloop : loopIndexLegal s)
    (hfault : ∀ r, s.seq = .fault r → r = .volumeOverflow ∧ s.params.volW ≠ none) : Inv s where
  old_nonneg := hold
  modes := (pins_eq_pinsAt.1 hpins).1
  act := (pins_eq_pinsAt.1 hpins).2
  ordered := hord
  loop := hloop
  fault := hfault

/-- The clauses of the loop and of FAULT say nothing where no command runs and there is no fault. -/
theorem inv_of_quiet_seq {s : State} (hq : (∃ j, s.seq = .boot j) ∨ s.seq = .idle) (hold : 0 ≤ s.old)
    (hpins : pins s = pinsAt s.seq) (hord : orderedHistory s) : Inv s := by
  refine inv_of_pins hold hpins hord (fun k hk => ?_) (fun r hr => ?_)
  · obtain ⟨j, e⟩ | e := hq <;> rw [e] at hk <;> cases hk
  · obtain ⟨j, e⟩ | e := hq <;> rw [e] at hr <;> cases hr

theorem inv_resetOf (P : Params) : Inv (State.resetOf P) :=
  inv_of_quiet_seq (.inl ⟨0, rfl⟩) (Int.natCast_nonneg _) rfl ⟨List.Pairwise.nil, by simp [State.resetOf]⟩

/-- A reset keeps the two tapes, of which the invariant does not speak (log entries 2 and 3). -/
theorem inv_resetBlock (s : State) : Inv (resetBlock s) :=
  let h := inv_resetOf s.params
  ⟨h.old_nonneg, h.modes, h.act, h.ordered, h.loop, h.fault⟩

theorem inv_host {s : State} (hs : Inv s) (h : List HostMove) : Inv { s with host := h } :=
  ⟨hs.old_nonneg, hs.modes, hs.act, hs.ordered, hs.loop, hs.fault⟩

/-- A command starts with its lines released and ACT off. -/
theorem inv_accept {s : State} (hs : Inv s) (hi : s.seq = .idle) (w : CmdWord) : Inv (accept w s) := by
  refine inv_of_pins hs.old_nonneg ?_ (orderedHistory_emit (s := { s with cmd := w }) hs.ordered _) ?_ ?_
  · have hidle : pins s = pinsAt .idle := hi ▸ pins_of_inv hs
    have hstart : ∀ c, pinsAt (.busy c (startPos c)) = pinsAt .idle := by intro c; cases c <;> rfl
    exact hidle.trans (hstart _).symm
  · intro k hk
    rw [accept_seq] at hk
    cases hc : decodeCode w.code <;> simp [hc, startPos] at hk
  · intro r hr
    simp at hr

/-- A line of the boot sequence, with the position that follows it. -/
theorem inv_bootLine {s : State} (hs : Inv s) {k : Fin 8} (hq : s.seq = .boot k) :
    Inv (advanceBoot k (afterLine (bootCode.get k) s)) := by
  refine inv_of_quiet_seq (advanceBoot_seq _ k) ?_ ?_
    (orderedHistory_advanceBoot (orderedHistory_afterLine hs.ordered _) k)
  · obtain ⟨q, e⟩ := advanceBoot_eq k (afterLine (bootCode.get k) s)
    rw [e]
    exact old_nonneg_afterLine hs.old_nonneg _
  · rw [pins_advanceBoot, pins_afterLine (raises_bootCode k s), pins_of_inv hs, hq, pinsAfter_pinsAt_boot]

/-- A line of a command that raises nothing, with the position that follows it. -/
theorem inv_line {s : State} (hs : Inv s) {c : Cmd} {k : Pos} (hq : s.seq = .busy c k)
    (hr : raises (actionAt c k) s = false) : Inv (advance c k (afterLine (actionAt c k) s)) := by
  refine inv_of_pins ?_ ?_ (orderedHistory_advance (orderedHistory_afterLine hs.ordered _) c k) ?_
    (fun r h => absurd h (advance_seq_ne_fault c k _ r))
  · rw [advance_old]
    exact old_nonneg_afterLine hs.old_nonneg _
  · rw [pins_advance, pins_afterLine hr, pins_of_inv hs, hq]
    exact pinsAfter_pinsAt (follows_advance c k _)
  · by_cases hk : k = .branch
    · subst hk
      exact loopIndexLegal_branch c s
    · obtain ⟨hi, hn⟩ := afterLine_loop hr (mt actionAt_eq_branch.1 hk)
      refine loopIndexLegal_advance hk fun j hj => ?_
      rw [hi, hn]
      exact hs.loop j (hq.trans hj)

/-- A line of a command that raises: in a safe state it is a RESOLVE, whose outcome leaves the lines
released in IDLE, or the overflow of a finite VOL_W, after the release. -/
theorem inv_raise {s : State} (hs : Inv s) {c : Cmd} {k : Pos} (hq : s.seq = .busy c k)
    (hr : raises (actionAt c k) s = true) : Inv (afterLine (actionAt c k) s) := by
  have hp : pins s = pinsAt (.busy c k) := hq ▸ pins_of_inv hs
  have hm : s.mode = (pinsAt (.busy c k)).1 := congrArg Prod.fst hp
  have hl : linesReady (actionAt c k) s.mode := hm ▸ linesReady_pinsAt c k
  obtain ⟨ha, e⟩ | ⟨ha, hw, e⟩ := raise_of_linesReady hl hr
  · obtain rfl := actionAt_eq_resolve.1 ha
    rw [e]
    exact inv_of_quiet_seq (.inr rfl) hs.old_nonneg hp (orderedHistory_emit hs.ordered _)
  · obtain rfl := actionAt_eq_addVolume.1 ha
    rw [e]
    refine inv_of_pins hs.old_nonneg hp hs.ordered (fun _ h => by simp at h) fun r h => ⟨?_, hw⟩
    simpa using h.symm

/-- Settles O55: resets, acceptance and every line, raising or not, keep the invariant, so `step_keeps`
gives it for every step, also one that runs a whole command. -/
theorem stepKeepsSafeStates : Obligations.StepKeepsSafeStates :=
  step_keeps
    (hreset := fun s _ => inv_resetBlock s)
    (hhost := fun _ h hs => inv_host hs h)
    (htick := tick_keeps
      (hboot := fun _ _ hs hq => inv_bootLine hs hq)
      (hraise := fun _ _ _ hs hq hr => inv_raise hs hq hr)
      (hline := fun _ _ _ hs hq hr => inv_line hs hq hr))
    (haccept := fun _ w hs hi => inv_accept hs hi w)

/-- Settles O12: the safe states hold at reset, no word is accepted there, and the pads are released. -/
theorem resetIsSafe : Obligations.ResetIsSafe :=
  have h : ∀ P : Params, Inv (State.resetOf P) ∧ doneForEachAccept (State.resetOf P) ∧
      padsFollowHistory (State.resetOf P) :=
    fun P => ⟨inv_resetOf P, rfl, padsFollowHistory_resetOf P⟩
  ⟨(h _).1, (h _).2.1, (h _).2.2, h⟩

end Sys2Proof.Safety
end

section
/-! The grains of a step (10_state.md R35; log entry 3): a step inside a pseudocode is `exec` of the
instruction at its position, and a command as one operation is the run of its steps. -/

namespace Sys2Proof.Machine

/-- A line that is a primitive is `exec` of it, with the loop variable bound. -/
theorem runAction_eq_exec {a : Action} {s : State} {i : Instr} (h : actionInstr a s = some i) :
    runAction a s = exec i (actionPrepare a s) := by
  cases a <;> cases h <;> rfl

@[simp] theorem actionInstr_host (a : Action) (s : State) (h : List HostMove) :
    actionInstr a { s with host := h } = actionInstr a s := by cases a <;> rfl

/-- Settles O17: the step is the tick, whose line is `exec` of the instruction it stands for. -/
theorem busyStepRunsItsPrimitive : Obligations.BusyStepRunsItsPrimitive := by
  intro s c k i hs hr hi
  have hi' : actionInstr (actionAt c k) { s with host := hostWhileBusy s.host } = some i := by
    rw [actionInstr_host, hi]
  rw [step_of_busy hs hr, tick_of_busy (s := { s with host := hostWhileBusy s.host }) hs,
    runAction_eq_exec hi', raises_host]

/-- Every line of the boot sequence is a primitive without a loop variable (70_reset_and_hazards.md R251). -/
theorem bootCode_instr (k : Fin 8) (s : State) :
    (∃ i, actionInstr (bootCode.get k) s = some i) ∧ actionPrepare (bootCode.get k) s = s := by
  fin_cases k <;> exact ⟨⟨_, rfl⟩, rfl⟩

/-- Settles O18, as O17 with the lines of the boot sequence. -/
theorem bootStepRunsItsPrimitive : Obligations.BootStepRunsItsPrimitive := by
  intro s k hs hr
  obtain ⟨⟨i, hi⟩, -⟩ := bootCode_instr k s
  have hi' : actionInstr (bootCode.get k) { s with host := hostWhileBusy s.host } = some i := by
    rw [actionInstr_host, hi]
  refine ⟨i, hi, ?_⟩
  rw [step_of_boot hs hr, tick_of_boot (s := { s with host := hostWhileBusy s.host }) hs,
    runAction_eq_exec hi', (bootCode_instr k _).2]

/-! A command and its steps. -/

theorem ne_idle_of_busy {q : Seq} (h : busy q = true) : q ≠ .idle := by
  rintro rfl
  cases h

theorem run_succ (k : Nat) (s : State) : core.run (k + 1) s = andThen (step s) (core.run k) := by
  cases h : step s <;> simp only [Host.Core.run, show core.step s = step s from rfl, h] <;> rfl

/-- At most `n` cycles of a running command are some number of steps, taken while it runs. -/
theorem runBusy_eq_run (n : Nat) (s : State) :
    ∃ k, k ≤ n ∧ core.run k s = runBusy n s ∧
      ∀ j t, j < k → core.run j s = .next t → busy t.seq = true := by
  induction n generalizing s with
  | zero => exact ⟨0, le_rfl, rfl, fun j t hj => absurd hj (Nat.not_lt_zero j)⟩
  | succ n ih =>
    cases hb : busy s.seq with
    | false => exact ⟨0, Nat.zero_le _, (runBusy_of_not_busy hb _).symm, fun j t hj => absurd hj (Nat.not_lt_zero j)⟩
    | true =>
      have hstep : step s = cycle s := step_of_not_idle (ne_idle_of_busy hb)
      have hrun : runBusy (n + 1) s = andThen (step s) (runBusy n) := by simp [runBusy, hb, hstep]
      have hstart : ∀ t, core.run 0 s = .next t → busy t.seq = true := by
        rintro t ⟨⟩
        exact hb
      cases ho : step s with
      | next u =>
        obtain ⟨k, hk, he, hbusy⟩ := ih u
        refine ⟨k + 1, Nat.succ_le_succ hk, by rw [run_succ, hrun, ho]; exact he, fun j t hj h => ?_⟩
        cases j with
        | zero => exact hstart t h
        | succ j =>
          rw [run_succ, ho] at h
          exact hbusy j t (Nat.lt_of_succ_lt_succ hj) h
      | fault r | refused r =>
        refine ⟨1, Nat.succ_le_succ (Nat.zero_le n), by rw [run_succ, hrun, ho]; rfl, fun j t hj h => ?_⟩
        obtain rfl := Nat.lt_one_iff.1 hj
        exact hstart t h

/-- A command that stands at its start is the run of its cycles from there. -/
theorem exec_of_started {s : State} {c : Cmd} (hs : s.seq = .busy c (startPos c)) :
    exec (c.instr s.cmd.code) s = runBusy (commandCycles c s) s := by
  have hself : { s with seq := .busy c (startPos c) } = s := by rw [← hs]
  have hrun : runCommand c s = runBusy (commandCycles c s) s := by rw [runCommand, hself]
  cases c <;> exact hrun

/-- Settles O19: a command runs as cycles until the block is no longer busy with it, and off IDLE each of
those cycles is a step. -/
theorem commandIsTheRunOfItsSteps : Obligations.CommandIsTheRunOfItsSteps := by
  intro s c hs
  rw [exec_of_started hs]
  exact runBusy_eq_run _ s

end Sys2Proof.Machine
end

section
/-! Who writes the volume registers (10_state.md R31 to R33): lines, lists of lines, commands, instructions. -/

namespace Sys2Proof.Machine

open Sys2Proof.Safety

/-- A list of lines writes `old` only if MUTE's branch is among them, and `vol` only if `vol <- vol + d` is. -/
theorem registersKept_runCode {code : List Action} {s t : State} (h : runCode code s = .next t) :
    RegistersKept (.branch ∈ code) (.addVolume ∈ code) s t := by
  induction code generalizing s with
  | nil => cases h; exact registersKept_refl _
  | cons a rest ih =>
    have ha : RegistersKept (.branch ∈ a :: rest) (.addVolume ∈ a :: rest) s (afterLine a s) :=
      (registersKept_afterLine a s).mono (fun e => e ▸ List.mem_cons_self) (fun e => e ▸ List.mem_cons_self)
    simp only [runCode, runAction_eq] at h
    split at h
    · cases h; exact ha
    · exact ha.trans ((ih h).mono (List.mem_cons_of_mem a) (List.mem_cons_of_mem a))

/-! The commands: only those whose pseudocode has a STEP reach `vol <- vol + d`, and only MUTE its branch. -/

/-- The commands whose body steps (42_quadrature.md R157, R158; 43_mute.md R180). -/
def hasStep : Cmd → Bool
  | .volumeUp => true
  | .volumeDown => true
  | .mute => true
  | .power => false
  | .unrecognized => false

/-- Whether position `k` is in the pseudocode of command `c` (41_dispatch.md R133, R134; 44_power.md R200). -/
def inCode (c : Cmd) (k : Pos) : Bool :=
  match k with
  | .log => decide (c = .unrecognized)
  | .pulse _ => decide (c ≠ .unrecognized)
  | .branch => decide (c = .mute)
  | .step _ => hasStep c
  | .power _ => decide (c = .power)
  | .done => true

/-- The positions of a block that runs command `c` or has ended it without a reset: those of its own
pseudocode, IDLE and FAULT. -/
def InCommand (c : Cmd) : Seq → Prop
  | .busy c' k => c' = c ∧ inCode c k = true
  | .idle => True
  | .fault _ => True
  | .boot _ => False

theorem inCommand_start (c : Cmd) : InCommand c (.busy c (startPos c)) := ⟨rfl, by cases c <;> rfl⟩

/-- The sequencer does not leave a command's pseudocode while it runs it. -/
theorem inCommand_of_follows {c : Cmd} {k : Pos} {q : Seq} (hk : inCode c k = true) (h : Follows c k q) :
    InCommand c q := by
  cases h with
  | body h => subst h; cases c <;> exact ⟨rfl, rfl⟩
  | loop =>
    obtain rfl : c = .mute := of_decide_eq_true hk
    exact ⟨rfl, rfl⟩
  | log | noLoop | stepped | powered => exact ⟨rfl, rfl⟩
  | pulse | step | again | power => exact ⟨rfl, hk⟩
  | done => trivial

theorem inCommand_of_raise (c : Cmd) {a : Action} {s : State} (h : raises a s = true) :
    InCommand c (afterLine a s).seq := by
  obtain ⟨-, e⟩ | ⟨r, e⟩ := afterLine_seq_of_raise h <;> rw [e] <;> trivial

theorem registersKept_line {c : Cmd} {k : Pos} (hk : inCode c k = true) (s : State) :
    RegistersKept (c = .mute) (hasStep c = true) s (afterLine (actionAt c k) s) := by
  refine (registersKept_afterLine _ s).mono (fun h => ?_) (fun h => ?_)
  · obtain rfl := actionAt_eq_branch.1 h
    exact of_decide_eq_true hk
  · obtain rfl := actionAt_eq_addVolume.1 h
    exact hk

/-- Command `c` has run from `s₀` to `s`, and has written no register that is not its own. -/
def CommandAt (c : Cmd) (s₀ s : State) : Prop :=
  InCommand c s.seq ∧ RegistersKept (c = .mute) (hasStep c = true) s₀ s

theorem commandAt_tick (c : Cmd) (s₀ : State) :
    ∀ s t, CommandAt c s₀ s → tick s = .next t → CommandAt c s₀ t := by
  refine tick_keeps ?_ ?_ ?_
  · rintro s k ⟨hpos, -⟩ hq
    rw [hq] at hpos
    exact hpos.elim
  · rintro s c' k ⟨hpos, hreg⟩ hq hr
    rw [hq] at hpos
    obtain ⟨rfl, hk⟩ := hpos
    exact ⟨inCommand_of_raise _ hr, hreg.trans (registersKept_line hk s)⟩
  · rintro s c' k ⟨hpos, hreg⟩ hq -
    rw [hq] at hpos
    obtain ⟨rfl, hk⟩ := hpos
    exact ⟨inCommand_of_follows hk (follows_advance c' k _), (hreg.trans (registersKept_line hk s)).trans
      (registersKept_of_eq (advance_params ..) (advance_old ..) (advance_vol ..))⟩

/-! Runs without a reset. -/

theorem tick_host {s t : State} (h : tick s = .next t) : t.host = s.host := by
  have e : tick s = andThen (tick s) fun u => .next { u with host := s.host } := tick_tape s s.host
  rw [h, andThen_next] at e
  injection e with e
  exact (congrArg State.host e :)

theorem noReset_hostWhileBusy {h : List HostMove} (hn : noReset h) : noReset (hostWhileBusy h) :=
  fun hm => hn (mem_of_mem_hostWhileBusy hm)

/-- A property that tape moves and ticks keep is kept by the run of a command that no reset ends. -/
theorem runBusy_keeps_of_noReset {P : State → Prop} (hhost : ∀ s h, P s → P { s with host := h })
    (htick : ∀ s t, P s → tick s = .next t → P t) {k : Nat} {s t : State} (hs : P s) (hn : noReset s.host)
    (h : runBusy k s = .next t) : P t := by
  have hcycle : ∀ s t, P s ∧ noReset s.host → cycle s = .next t → P t ∧ noReset t.host := by
    rintro s t ⟨hs, hn⟩ h
    simp only [cycle, resetDriven_of_not_mem hn, Bool.false_eq_true, if_false] at h
    split at h
    · cases h
    · exact ⟨htick _ _ (hhost _ _ hs) h, tick_host h ▸ noReset_hostWhileBusy hn⟩
  exact (runBusy_keeps hcycle k s t ⟨hs, hn⟩ h).1

theorem registersKept_runCommand {c : Cmd} {s t : State} (hn : noReset s.host)
    (h : runCommand c s = .next t) : RegistersKept (c = .mute) (hasStep c = true) s t := by
  have hstart : CommandAt c s (place (.busy c (startPos c)) s.host s) :=
    ⟨inCommand_start c, registersKept_of_eq rfl rfl rfl⟩
  exact (runBusy_keeps_of_noReset (P := CommandAt c s) (fun _ _ hs => hs) (commandAt_tick c s) hstart hn h).2

/-! The instructions. -/

theorem registersKept_readLine (l : Line) (s : State) : RegistersKept False False s (readLine l s) := by
  cases h : get s.mode l with
  | input => rw [readLine_of_input h]; exact registersKept_of_eq rfl rfl rfl
  | output => rw [readLine_of_output h]; exact registersKept_of_eq rfl rfl rfl

theorem registersKept_writeLine (l : Line) (b : Level) (s : State) :
    RegistersKept False False s (writeLine l b s) := by
  cases h : get s.mode l with
  | input => rw [writeLine_of_input h]; exact registersKept_of_eq rfl rfl rfl
  | output => rw [writeLine_of_output h]; exact registersKept_of_eq rfl rfl rfl

theorem registersKept_pairOp (op : PairOp) (s : State) : RegistersKept False False s (pairOp op s) := by
  cases op with
  | setModeIn | setModeOut => exact registersKept_of_eq rfl rfl rfl
  | read =>
    rw [pairOp, readPair]
    split
    · exact (registersKept_of_eq rfl rfl rfl).trans (registersKept_readLine .vup (sense .vdown s))
    · exact registersKept_of_eq rfl rfl rfl
  | write a b =>
    rw [pairOp, writePair]
    split
    · exact (registersKept_of_eq rfl rfl rfl).trans (registersKept_writeLine .vup b (drive .vdown a s))
    · exact registersKept_of_eq rfl rfl rfl

/-- The instructions that write `vol`: MUTE, the volume commands and STEP (10_state.md R31). -/
def writesVol : Instr → Bool
  | .volumeUp => true
  | .volumeDown => true
  | .mute => true
  | .step _ => true
  | _ => false

/-- What an instruction leaves of the volume registers without a reset. -/
theorem registersKept_exec {i : Instr} {s t : State} (hn : noReset s.host) (h : exec i s = .next t) :
    RegistersKept (i = .mute) (writesVol i = true) s t := by
  cases i with
  | volumeUp | volumeDown | mute | power =>
    exact (registersKept_runCommand hn h).mono (by simp) (by simp [hasStep, writesVol])
  | unrecognized code =>
    exact (registersKept_runCommand (s := { s with cmd := { s.cmd with code := code } }) hn h).mono
      (by simp) (by simp [hasStep])
  | setModeIn | setModeOut | wait | setAct | emit => cases h; exact registersKept_of_eq rfl rfl rfl
  | read l => cases h; exact (registersKept_readLine l s).mono False.elim False.elim
  | write l b => cases h; exact (registersKept_writeLine l b s).mono False.elim False.elim
  | pair op => cases h; exact (registersKept_pairOp op s).mono False.elim False.elim
  | resolve sd su =>
    simp only [exec, execResolve] at h
    split at h <;> cases h <;> exact registersKept_of_eq rfl rfl rfl
  | activityPulse | pressPower =>
    exact (registersKept_runCode h).mono (by decide) (by decide)
  | step d =>
    exact (registersKept_runCode (s := { s with d := d }) h).mono (fun hb => absurd hb (by decide))
      (fun _ => rfl)
  | bootSequence =>
    rw [exec, execBootSequence, andThen_eq_next] at h
    obtain ⟨u, hu, ⟨⟩⟩ := h
    exact (registersKept_runCode hu).mono (by decide) (by decide)

/-- Settles O54, from what each instruction leaves of the registers. -/
theorem whoWritesTheVolumeRegisters : Obligations.WhoWritesTheVolumeRegisters := by
  intro i s t hn h
  obtain ⟨hparams, hold, hvol⟩ := registersKept_exec hn h
  refine ⟨hold, fun hmute hup hdown hstep => hvol fun hw => ?_, hparams⟩
  cases i with
  | mute => exact hmute rfl
  | volumeUp => exact hup rfl
  | volumeDown => exact hdown rfl
  | step d => exact hstep d rfl
  | _ => cases hw

end Sys2Proof.Machine
end

section
/-! The flags and the register views (10_state.md R36, R37, R41, R42), and the reset values (R46). -/

namespace Sys2Proof.Machine

/-- Settles O9: the reset record names these values. -/
theorem resetValues : Obligations.ResetValues :=
  ⟨rfl, fun _ => ⟨rfl, rfl, fun l => by cases l <;> rfl, rfl, rfl, rfl⟩⟩

theorem ready_iff {s : State} : ready s = true ↔ s.seq = .idle := decide_eq_true_iff

theorem muted_iff {s : State} : muted s = true ↔ s.vol = 0 ∧ s.old > 0 := by simp [muted]

theorem drv_of_output {s : State} {l : Line} (h : get s.mode l = .output) : drv s l = .driven (get s.lat l) := by
  rw [drv, h, driveOf]

theorem drv_of_input {s : State} {l : Line} (h : get s.mode l = .input) : drv s l = .z := by
  rw [drv, h, driveOf]

/-- Settles O22. -/
theorem flagsAndPadDrive : Obligations.FlagsAndPadDrive :=
  fun _ => ⟨ready_iff, muted_iff, fun _ => ⟨drv_of_output, drv_of_input⟩⟩

/-- Bit 0 is VDOWN, bit 1 VUP, bit 2 PWR (R41). -/
theorem lineBits_getLsbD (vdown vup pwr : Bool) :
    (lineBits vdown vup pwr).getLsbD 0 = vdown ∧ (lineBits vdown vup pwr).getLsbD 1 = vup ∧
      (lineBits vdown vup pwr).getLsbD 2 = pwr := by
  revert vdown vup pwr
  decide

theorem modeBit_eq (m : Mode) : modeBit m = decide (m = .output) := by cases m <;> rfl

theorem levelBit_eq (b : Level) : levelBit b = decide (b = .high) := by cases b <;> rfl

/-- Settles O23, from the order of the bits and the bit of a mode and of a level. -/
theorem registerViews : Obligations.RegisterViews := by
  intro s
  obtain ⟨hm0, hm1, hm2⟩ := lineBits_getLsbD (modeBit s.mode.vdown) (modeBit s.mode.vup) (modeBit s.mode.pwr)
  obtain ⟨hl0, hl1, hl2⟩ := lineBits_getLsbD (levelBit s.lat.vdown) (levelBit s.lat.vup) (levelBit s.lat.pwr)
  have hact : (actBit s).getLsbD 0 = decide (s.act = .high) := by
    rw [actBit, levelBit_eq]
    cases decide (s.act = .high) <;> rfl
  exact ⟨hm0.trans (modeBit_eq _), hm1.trans (modeBit_eq _), hm2.trans (modeBit_eq _),
    hl0.trans (levelBit_eq _), hl1.trans (levelBit_eq _), hl2.trans (levelBit_eq _), hact,
    fun _ => ⟨show lineBits false false false = 0 by decide, rfl⟩⟩

end Sys2Proof.Machine
end

section
/-! The encoding (30_encoding.md R81 to R85, R89): the decoder and the encoder undo each other on the
well-formed commands, and the packed word loses nothing. With them the result codes (R92) and the phase
table (R87, R88). -/

namespace Sys2Proof

theorem mem_recognizedCodes {code : Nat} :
    code ∈ recognizedCodes ↔ code = 18 ∨ code = 19 ∨ code = 20 ∨ code = 21 := by
  simp [recognizedCodes]

theorem decode_of_not_recognized {w : CmdWord} (h : w.code ∉ recognizedCodes) :
    decode w = .unrecognized w.code := by
  simp only [mem_recognizedCodes, not_or] at h
  obtain ⟨h18, h19, h20, h21⟩ := h
  simp [decode, decodeCode, h18, h19, h20, h21, Cmd.instr]

/-- The recognized codes have five bits, so that a truncation could only confuse a wider code with them. -/
theorem lt_32_of_mem_recognizedCodes {code : Nat} (h : code ∈ recognizedCodes) : code < 32 := by
  rw [mem_recognizedCodes] at h
  omega

theorem wfUnrecognized_iff {P : Params} {code : Nat} :
    wfUnrecognized P code = true ↔ code < 2 ^ P.codeW ∧ code ∉ recognizedCodes := by
  simp [wfUnrecognized]

theorem fits_iff {P : Params} {w : CmdWord} :
    w.fits P = true ↔ w.code < 2 ^ P.codeW ∧ w.address < 2 ^ P.addrW ∧ w.control < 2 ^ P.ctrlW := by
  simp [CmdWord.fits, and_assoc]

/-- Settles O1: the four codes compute, and every other code is none of the recognized ones. -/
theorem commandMapDecodes : Obligations.CommandMapDecodes := by
  intro a k
  refine ⟨rfl, rfl, rfl, rfl, fun code h18 h19 h20 h21 => ?_⟩
  exact decode_of_not_recognized (by simp [mem_recognizedCodes, h18, h19, h20, h21])

/-- Settles O2: a code of more than five bits is none of the recognized codes, and `decode` reads the
code alone. -/
theorem codesAreNotTruncated : Obligations.CodesAreNotTruncated := by
  refine ⟨fun code a k h => decode_of_not_recognized fun hmem => h ?_, fun _ _ _ _ _ => rfl⟩
  exact Nat.div_eq_of_lt (lt_32_of_mem_recognizedCodes hmem)

/-! The code of an instruction. -/

theorem isSome_codeOf (i : Instr) : (codeOf i).isSome = i.isCommand := by cases i <;> rfl

theorem encode_of_codeOf {i : Instr} {code : Nat} (h : codeOf i = some code) (a k : Nat) :
    encode i a k = some { code := code, address := a, control := k } := by rw [encode, h, Option.map_some]

theorem encode_of_internal {i : Instr} (h : i.isCommand = false) (a k : Nat) : encode i a k = none := by
  rw [← isSome_codeOf, Option.isSome_eq_false_iff, Option.isNone_iff_eq_none] at h
  rw [encode, h, Option.map_none]

/-- The code of a well-formed instruction of format CMD has the width of the port's field (R83). -/
theorem codeOf_lt {P : Params} {i : Instr} {code : Nat} (hP : P.legal = true) (hwf : i.wf P = true)
    (h : codeOf i = some code) : code < 2 ^ P.codeW := by
  cases i with
  | volumeUp | volumeDown | mute | power => cases h; exact Laws.Format.code_fits hP (by decide)
  | unrecognized => cases h; exact (wfUnrecognized_iff.1 hwf).1
  | _ => cases h

/-- Decoding a code gives an instruction of that code, whether the code is recognized or not. -/
theorem codeOf_decode (w : CmdWord) : codeOf (decode w) = some w.code := by
  by_cases h : w.code ∈ recognizedCodes
  · obtain ⟨code, a, k⟩ := w
    obtain rfl | rfl | rfl | rfl := mem_recognizedCodes.1 h <;> rfl
  · rw [decode_of_not_recognized h, codeOf]

/-- The decoder inverts the code table on the well-formed instructions: UNRECOGNIZED does not hold one of
the four recognized codes. -/
theorem decode_of_codeOf {P : Params} {i : Instr} {w : CmdWord} (hwf : i.wf P = true)
    (h : codeOf i = some w.code) : decode w = i := by
  obtain ⟨code, a, k⟩ := w
  cases i with
  | volumeUp | volumeDown | mute | power => cases h; rfl
  | unrecognized c => cases h; exact decode_of_not_recognized (wfUnrecognized_iff.1 hwf).2
  | _ => cases h

theorem isCommand_decode (w : CmdWord) : (decode w).isCommand = true := by
  rw [← isSome_codeOf, codeOf_decode, Option.isSome_some]

/-- Settles O4, from the code of a decoded word. -/
theorem wordsAndCommandsCorrespond : Obligations.WordsAndCommandsCorrespond := by
  refine ⟨fun w => ⟨isCommand_decode w, encode_of_codeOf (codeOf_decode w) _ _⟩,
    fun i hi => ⟨encode_of_internal hi, fun w hw => ?_⟩⟩
  have hcmd := isCommand_decode w
  rw [hw, hi] at hcmd
  cases hcmd

/-- A packed word that fits the port is taken apart into its three fields (R81): each field is smaller
than the weight of the next. -/
theorem unpackWord_packWord {P : Params} {w : CmdWord} (h : w.fits P = true) :
    unpackWord P (packWord P w) = w := by
  obtain ⟨hcode, haddr, hctrl⟩ := fits_iff.1 h
  have hlow : packWord P w % 2 ^ P.codeW = w.code := by
    rw [packWord, Nat.add_mul_mod_self_left, Nat.mod_eq_of_lt hcode]
  have hhigh : packWord P w / 2 ^ P.codeW = w.address + 2 ^ P.addrW * w.control := by
    rw [packWord, Nat.add_mul_div_left _ _ (Nat.two_pow_pos _), Nat.div_eq_of_lt hcode, Nat.zero_add]
  rw [unpackWord, hlow, hhigh, Nat.add_mul_mod_self_left, Nat.mod_eq_of_lt haddr,
    Nat.add_mul_div_left _ _ (Nat.two_pow_pos _), Nat.div_eq_of_lt haddr, Nat.zero_add, Nat.mod_eq_of_lt hctrl]

/-- Settles O3: the word of the instruction's code fits the port, so packing loses nothing, and the decoder
inverts the code table. -/
theorem packedEncodingRoundTrip : Obligations.PackedEncodingRoundTrip := by
  intro P i a k hP hcmd hwf ha hk
  rw [← isSome_codeOf, Option.isSome_iff_exists] at hcmd
  obtain ⟨code, hcode⟩ := hcmd
  have hfits : CmdWord.fits P { code := code, address := a, control := k } = true :=
    fits_iff.2 ⟨codeOf_lt hP hwf hcode, ha, hk⟩
  have hpack := unpackWord_packWord hfits
  exact ⟨_, encode_of_codeOf hcode a k, hfits, rfl, rfl, hpack, by rw [hpack, decode_of_codeOf hwf hcode]⟩

/-! The result codes (R92). -/

theorem resultOfCode_resultCode (r : Result) : resultOfCode (resultCode r) = some r := by cases r <;> rfl

/-- Settles O5. -/
theorem resultCodesOfDone : Obligations.ResultCodesOfDone :=
  ⟨rfl, rfl, rfl, resultOfCode_resultCode, rfl⟩

end Sys2Proof

namespace Sys2Proof.Machine

/-! The phases (R87, R88). -/

@[simp] theorem phaseIndex_phasePair (p : Phase) : phaseIndex (phasePair p).1 (phasePair p).2 = p := by
  match p with
  | 0 | 1 | 2 | 3 => rfl

/-- `mod4` of the next index is the successor in the cycle of four (00_scope.md R11). -/
theorem mod4_val_add_one (p : Phase) : mod4 (p.val + 1) = p + 1 := by
  match p with
  | 0 | 1 | 2 | 3 => rfl

/-- Of the two lines of a phase, the successor keeps one and changes the other. -/
theorem phasePair_fst_eq_succ_iff (p : Phase) :
    (phasePair p).1 = (phasePair (p + 1)).1 ↔ (phasePair p).2 ≠ (phasePair (p + 1)).2 := by
  match p with
  | 0 | 1 | 2 | 3 => decide

/-- Settles O6, from the table's inverse and from the change at each successor. -/
theorem phaseTableAndInverse : Obligations.PhaseTableAndInverse := by
  refine ⟨rfl, rfl, rfl, rfl, phaseIndex_phasePair, phasePair_phaseIndex, fun p => ?_⟩
  rw [mod4_val_add_one]
  exact phasePair_fst_eq_succ_iff p

end Sys2Proof.Machine
end

section
/-! No command reaches a LineModeViolation (40_line_primitives.md R108, 60_exceptions.md R223): a fault is the
outcome of a step only in FAULT, and a safe state in FAULT is there by an overflow. -/

namespace Sys2Proof.Machine

theorem tick_answers (s : State) : ∃ t, tick s = .next t := by
  obtain ⟨-, e⟩ | ⟨r, -, e⟩ | ⟨k, -, e⟩ | ⟨c, k, -, -, e⟩ | ⟨c, k, -, -, e⟩ := tick_cases s <;> exact ⟨_, e⟩

/-- A cycle answers a next state, but for the end of a run in FAULT (log entry 5). -/
theorem cycle_answers (s : State) :
    (∃ t, cycle s = .next t) ∨ ∃ r, s.host = [] ∧ s.seq = .fault r ∧ cycle s = .fault r := by
  cases hr : resetDriven s.host with
  | true => exact .inl ⟨_, cycle_of_reset hr⟩
  | false =>
    cases hf : finalFault s with
    | none =>
      obtain ⟨t, ht⟩ := tick_answers { s with host := hostWhileBusy s.host }
      exact .inl ⟨t, (cycle_of_no_reset hr hf).trans ht⟩
    | some r =>
      obtain ⟨hh, hs⟩ := finalFault_eq_some.1 hf
      exact .inr ⟨r, hh, hs, cycle_of_finalFault hf⟩

/-- A cycle is run only while the block is busy, so never in FAULT. -/
theorem runBusy_answers (k : Nat) (s : State) : ∃ t, runBusy k s = .next t := by
  induction k generalizing s with
  | zero => exact ⟨s, rfl⟩
  | succ k ih =>
    cases hb : busy s.seq with
    | false => exact ⟨s, runBusy_of_not_busy hb _⟩
    | true =>
      obtain ⟨t, ht⟩ | ⟨r, -, hs, -⟩ := cycle_answers s
      · obtain ⟨u, hu⟩ := ih t
        exact ⟨u, by rw [runBusy, if_pos hb, ht, andThen_next, hu]⟩
      · rw [hs] at hb
        cases hb

/-- A step answers a next state, but for the end of a run in FAULT (60_exceptions.md R223; log entry 5). -/
theorem step_answers (s : State) :
    (∃ t, step s = .next t) ∨ ∃ r, s.host = [] ∧ s.seq = .fault r ∧ step s = .fault r := by
  by_cases hi : s.seq = .idle
  · left
    cases hr : resetDriven s.host with
    | true => exact ⟨_, step_of_reset hr⟩
    | false =>
      cases hw : presented s.host with
      | none => exact ⟨{ s with host := s.host.tail }, by simp [step, hr, hi, hw]⟩
      | some w =>
        obtain ⟨t, ht⟩ := runBusy_answers _ (accept w { s with host := s.host.tail })
        exact ⟨t, by simpa [step, hr, hi, hw] using (exec_decode_accept w _).trans ht⟩
  · rw [step_of_not_idle hi]
    exact cycle_answers s

theorem seq_of_step_fault {s : State} {r : Fault} (h : step s = .fault r) : s.seq = .fault r := by
  obtain ⟨t, e⟩ | ⟨r', -, hs, e⟩ := step_answers s <;> rw [e] at h <;> cases h
  exact hs

end Sys2Proof.Machine

namespace Sys2Proof.Safety

open Sys2Proof.Machine

theorem Inv.seq_ne_lineModeViolation {s : State} (hs : Inv s) (op : LineOp) (l : Line) :
    s.seq ≠ .fault (.lineModeViolation op l) :=
  fun h => nomatch (hs.fault _ h).1

/-- Settles O56: a next state is safe again (O55), and a fault as the outcome is the one the safe state
was in already. -/
theorem safeStepsNeverViolateLineModes : Obligations.SafeStepsNeverViolateLineModes :=
  fun s op l hs =>
    ⟨fun h => hs.seq_ne_lineModeViolation op l (seq_of_step_fault h),
      fun t h => (stepKeepsSafeStates s t hs h).seq_ne_lineModeViolation op l⟩

end Sys2Proof.Safety
end

section
/-! The line primitives (40_line_primitives.md R101 to R107, R112): the operation each of them is, and what
it makes of the pads. -/

namespace Sys2Proof.Machine

@[simp] theorem exec_setModeIn (l : Line) (s : State) : exec (.setModeIn l) s = .next (setModeIn l s) := rfl

@[simp] theorem exec_setModeOut (l : Line) (b : Level) (s : State) :
    exec (.setModeOut l b) s = .next (setModeOut l b s) := rfl

@[simp] theorem exec_read (l : Line) (s : State) : exec (.read l) s = .next (readLine l s) := rfl

@[simp] theorem exec_write (l : Line) (b : Level) (s : State) :
    exec (.write l b) s = .next (writeLine l b s) := rfl

@[simp] theorem exec_pair (op : PairOp) (s : State) : exec (.pair op) s = .next (pairOp op s) := rfl

/-- The two events of SET_MODE(L, OUT, init) are appended together (R102). -/
theorem setModeOut_eq (l : Line) (b : Level) (s : State) :
    setModeOut l b s = { s with
      lat := set s.lat l b
      mode := set s.mode l .output
      history := s.history ++ [(s.now, .latch l b), (s.now, .mode l .output)] } := by
  simp [setModeOut, emit]

section Pads
variable (l : Line) (b : Level) (s : State)

theorem drv_setModeIn_same : drv (setModeIn l s) l = .z :=
  drv_of_input (get_set_same s.mode .input l)

theorem drv_setModeOut_same : drv (setModeOut l b s) l = .driven b := by
  simp [drv, driveOf]

variable {l' : Line} (hl : l' ≠ l)
include hl

theorem drv_setModeIn_other : drv (setModeIn l s) l' = drv s l' := by
  simp [drv, get_set_other _ _ hl]

theorem drv_setModeOut_other : drv (setModeOut l b s) l' = drv s l' := by
  simp [drv, get_set_other _ _ hl]

theorem drv_drive_other : drv (drive l b s) l' = drv s l' := by
  simp [drv, get_set_other _ _ hl]

end Pads

theorem drv_drive_same {l : Line} {s : State} (h : get s.mode l = .output) (b : Level) :
    drv (drive l b s) l = .driven b := by
  simp [drv, h, driveOf]

/-- Settles O24; of a released line the write of the mode is none (R112). -/
theorem setModeInReleases : Obligations.SetModeInReleases := by
  intro l s
  refine ⟨_, exec_setModeIn l s, rfl, drv_setModeIn_same l s, fun _ hl => drv_setModeIn_other l s hl, fun h => ?_⟩
  have hmode : set s.mode l .input = s.mode := h ▸ set_get_self s.mode l
  rw [setModeIn, hmode, emit]

/-- Settles O25. -/
theorem setModeOutDrives : Obligations.SetModeOutDrives :=
  fun l b s => ⟨_, exec_setModeOut l b s, setModeOut_eq l b s, drv_setModeOut_same l b s,
    fun _ hl => drv_setModeOut_other l b s hl⟩

/-- Settles O26, by the two modes of the line. -/
theorem readSensesOrFaults : Obligations.ReadSensesOrFaults := by
  refine fun l s => ⟨fun h => ?_, fun h => ?_, fun a rest h => answer_of_env h l⟩
  · rw [exec_read, readLine_of_input h]
    rfl
  · rw [exec_read, readLine_of_output h, enterFault]

/-- Settles O27, by the two modes of the line. -/
theorem writeDrivesOrFaults : Obligations.WriteDrivesOrFaults := by
  refine fun l b s => ⟨fun h => ?_, fun h => ?_⟩
  · exact ⟨drive l b s, by rw [exec_write, writeLine_of_output h], rfl, drv_drive_same h b,
      fun _ hl => drv_drive_other l b s hl⟩
  · rw [exec_write, writeLine_of_input h, enterFault]

/-- Settles O28. -/
theorem waitAdvancesTimeOnly : Obligations.WaitAdvancesTimeOnly := fun _ _ => ⟨rfl, rfl⟩

/-- Settles O29. -/
theorem setActSetsTheIndicator : Obligations.SetActSetsTheIndicator := fun _ _ => rfl

/-- Settles O30. -/
theorem emitAppendsOnly : Obligations.EmitAppendsOnly := fun _ _ => rfl

end Sys2Proof.Machine
end

section
/-! The two-line forms (40_line_primitives.md R113): the primitive on VDOWN, then the one on VUP unless the
block is in FAULT by then. -/

namespace Sys2Proof.Machine

section PairForms
variable {s : State}

theorem readPair_of_vdown_input (h : s.mode.vdown = .input) : readPair s = readLine .vup (readLine .vdown s) := by
  simp only [readPair, h, readLine_of_input (l := .vdown) h]

theorem readPair_of_vdown_output (h : s.mode.vdown = .output) : readPair s = readLine .vdown s := by
  simp only [readPair, h, readLine_of_output (l := .vdown) h]

theorem writePair_of_vdown_output (h : s.mode.vdown = .output) (a b : Level) :
    writePair a b s = writeLine .vup b (writeLine .vdown a s) := by
  simp only [writePair, h, writeLine_of_output (l := .vdown) h]

theorem writePair_of_vdown_input (h : s.mode.vdown = .input) (a b : Level) :
    writePair a b s = writeLine .vdown a s := by
  simp only [writePair, h, writeLine_of_input (l := .vdown) h]

end PairForms

/-- Settles O31: SET_MODE2 by definition, READ2 and WRITE2 by the mode of VDOWN. -/
theorem pairFormsAreTwoPrimitives : Obligations.PairFormsAreTwoPrimitives :=
  fun _ => ⟨rfl, fun _ _ => rfl,
    fun h => congrArg Host.Outcome.next (readPair_of_vdown_input h),
    fun h => congrArg Host.Outcome.next (readPair_of_vdown_output h),
    fun a b h => congrArg Host.Outcome.next (writePair_of_vdown_output h a b),
    fun a b h => congrArg Host.Outcome.next (writePair_of_vdown_input h a b)⟩

/-- READ2 takes the next two answers of the tape, VDOWN's first (log entry 2). -/
theorem pair_answers_of_env {s : State} {a b : SenseLevel} {rest : List SenseLevel}
    (h : s.env = a :: b :: rest) : answer s .vdown = a ∧ answer (sense .vdown s) .vup = b :=
  ⟨answer_of_env h _, answer_of_env (rest := rest) (by rw [sense_env, h, List.tail_cons]) _⟩

/-- Settles O32: with the modes as required, each form is the two operations, their events appended
together. -/
theorem pairFormsComplete : Obligations.PairFormsComplete := by
  refine fun s => ⟨?_, fun a b => ?_, fun a b h1 h2 => ?_, fun h1 h2 =>
    ⟨answer s .vdown, answer (sense .vdown s) .vup, ?_, fun _ _ _ => pair_answers_of_env⟩⟩
  · simp [pairOp, setModeIn, emit]
  · simp [pairOp, setModeOut_eq]
  · rw [exec_pair, pairOp, writePair_of_output h1 h2]
    simp [drive, emit]
  · rw [exec_pair, pairOp, readPair_of_input h1 h2]
    simp [sense, emit]

end Sys2Proof.Machine
end

section
/-! One DONE for each accepted word (41_dispatch.md R136, 60_exceptions.md R227): how many ACCEPT and DONE
events a line emits, against the words that are open before it and after it. -/

namespace Sys2Proof.Safety

open Sys2Proof.Machine

/-- The ACCEPT events of a history. -/
def accepts (h : History) : Nat := h.countP fun x => isAccept x.2

/-- The DONE events of a history. -/
def dones (h : History) : Nat := h.countP fun x => isDone x.2

section Counts
variable (h h' : History) (x : Nat × Event)

@[simp] theorem accepts_append : accepts (h ++ h') = accepts h + accepts h' := List.countP_append

@[simp] theorem dones_append : dones (h ++ h') = dones h + dones h' := List.countP_append

@[simp] theorem accepts_nil : accepts [] = 0 := rfl

@[simp] theorem dones_nil : dones [] = 0 := rfl

@[simp] theorem accepts_cons : accepts (x :: h) = accepts h + if isAccept x.2 then 1 else 0 := List.countP_cons

@[simp] theorem dones_cons : dones (x :: h) = dones h + if isDone x.2 then 1 else 0 := List.countP_cons

end Counts

/-- How many accepted words have had no DONE yet, by the position of the sequencer. -/
def openWords : Seq → Nat
  | .busy _ _ => 1
  | .fault _ => 1
  | .boot _ => 0
  | .idle => 0

theorem doneForEachAccept_iff {s : State} :
    doneForEachAccept s ↔ accepts s.history = dones s.history + openWords s.seq := by
  have hopen : (if busy s.seq || (faulted s).isSome then 1 else 0) = openWords s.seq := by
    cases hs : s.seq <;> simp [busy, faulted, openWords, hs]
  rw [doneForEachAccept, hopen, accepts, dones]

/-- How many DONE events a line emits: EMIT DONE one, and a RESOLVE that raises one (60_exceptions.md R228). -/
def donesOf (a : Action) (s : State) : Nat :=
  match a with
  | .done _ => 1
  | .resolve => if raises .resolve s then 1 else 0
  | _ => 0

theorem donesOf_of_no_raise {a : Action} {s : State} (hr : raises a s = false) (ha : ∀ r, a ≠ .done r) :
    donesOf a s = 0 := by
  cases a with
  | done r => exact absurd rfl (ha r)
  | resolve => simp [donesOf, hr]
  | _ => rfl

/-- The history after a line: no ACCEPT is new, and the new DONE events are the line's. -/
theorem counts_afterLine (a : Action) (s : State) :
    accepts (afterLine a s).history = accepts s.history ∧
      dones (afterLine a s).history = dones s.history + donesOf a s := by
  cases hr : raises a s with
  | true =>
    have h := afterLine_raise hr
    generalize afterLine a s = t at h
    cases h <;> simp [donesOf, hr, isAccept, isDone]
  | false =>
    have h := afterLine_effect hr
    generalize afterLine a s = t at h
    cases a with
    | lineWrite | addVolume => obtain ⟨-, rfl⟩ := h; simp [donesOf, isAccept, isDone]
    | pairRead | drive => obtain ⟨-, -, rfl⟩ := h; simp [donesOf, driveEvents, isAccept, isDone]
    | resolve => obtain ⟨p, -, rfl⟩ := h; simp [donesOf, hr]
    | branch =>
      subst h
      obtain ⟨-, e⟩ | ⟨-, e⟩ | ⟨-, -, e⟩ := muteBranch_cases s <;> rw [e] <;> exact ⟨rfl, rfl⟩
    | _ => subst h; simp [donesOf, isAccept, isDone]

/-- A line that raises closes the open word by its DONE, or leaves it open in FAULT (R227). -/
theorem donesOf_add_openWords_of_raise {a : Action} {s : State} (hr : raises a s = true) :
    donesOf a s + openWords (afterLine a s).seq = 1 := by
  have h := afterLine_raise hr
  generalize afterLine a s = t at h
  cases h with
  | unresolved => simp [donesOf, hr, openWords]
  | _ => rfl

theorem actionAt_ne_done {c : Cmd} {k : Pos} (hk : k ≠ .done) (r : Result) : actionAt c k ≠ .done r := by
  cases k with
  | pulse j | step j | power j => fin_cases j <;> simp [actionAt, pulseCode, stepCode, powerCode]
  | done => exact absurd rfl hk
  | _ => simp [actionAt]

/-- A line that raises nothing closes the open word at the position of EMIT DONE, where the command ends, and
nowhere else (41_dispatch.md R136). -/
theorem donesOf_add_openWords_of_line {c : Cmd} {k : Pos} {s : State} (hr : raises (actionAt c k) s = false)
    (u : State) : donesOf (actionAt c k) s + openWords (advance c k u).seq = 1 := by
  by_cases hk : k = .done
  · subst hk
    rfl
  · rw [donesOf_of_no_raise hr (actionAt_ne_done hk), Nat.zero_add]
    have hq := follows_advance c k u
    generalize (advance c k u).seq = q at hq
    cases hq with
    | done => exact absurd rfl hk
    | _ => rfl

/-- The balance after a line and whatever moves the sequencer after it. -/
theorem doneForEachAccept_of_line {a : Action} {s t : State} (hs : doneForEachAccept s)
    (hh : t.history = (afterLine a s).history) (ho : donesOf a s + openWords t.seq = openWords s.seq) :
    doneForEachAccept t := by
  rw [doneForEachAccept_iff] at hs ⊢
  obtain ⟨haccepts, hdones⟩ := counts_afterLine a s
  rw [hh, haccepts, hdones, hs, ← ho, Nat.add_assoc]

theorem doneForEachAccept_bootLine {s : State} (hs : doneForEachAccept s) {k : Fin 8} (hq : s.seq = .boot k) :
    doneForEachAccept (advanceBoot k (afterLine (bootCode.get k) s)) := by
  refine doneForEachAccept_of_line (a := bootCode.get k) hs ?_ ?_
  · obtain ⟨q, e⟩ := advanceBoot_eq k (afterLine (bootCode.get k) s)
    rw [e]
  · have hd : donesOf (bootCode.get k) s = 0 := by fin_cases k <;> rfl
    obtain ⟨j, e⟩ | e := advanceBoot_seq (afterLine (bootCode.get k) s) k <;> rw [hd, e, hq] <;> rfl

theorem doneForEachAccept_raise {s : State} (hs : doneForEachAccept s) {c : Cmd} {k : Pos}
    (hq : s.seq = .busy c k) (hr : raises (actionAt c k) s = true) :
    doneForEachAccept (afterLine (actionAt c k) s) :=
  doneForEachAccept_of_line hs rfl ((donesOf_add_openWords_of_raise hr).trans (by rw [hq]; rfl))

theorem doneForEachAccept_line {s : State} (hs : doneForEachAccept s) {c : Cmd} {k : Pos}
    (hq : s.seq = .busy c k) (hr : raises (actionAt c k) s = false) :
    doneForEachAccept (advance c k (afterLine (actionAt c k) s)) := by
  refine doneForEachAccept_of_line hs ?_ ((donesOf_add_openWords_of_line hr _).trans (by rw [hq]; rfl))
  obtain ⟨q, d, i, e⟩ := advance_eq c k (afterLine (actionAt c k) s)
  rw [e]

/-- Acceptance opens the word whose ACCEPT it emits (41_dispatch.md R130). -/
theorem doneForEachAccept_accept {s : State} (hs : doneForEachAccept s) (hi : s.seq = .idle) (w : CmdWord) :
    doneForEachAccept (accept w s) := by
  rw [doneForEachAccept_iff, hi] at hs
  rw [doneForEachAccept_iff]
  simp [hs, openWords, isAccept, isDone]

/-- Settles O58: a reset empties the history, acceptance opens a word, and every line, raising or not, emits
as many DONE as it closes words, so `step_keeps` gives it for every step. -/
theorem oneDoneForEachAccept : Obligations.OneDoneForEachAccept :=
  step_keeps
    (hreset := fun _ _ => rfl)
    (hhost := fun _ _ hs => hs)
    (htick := tick_keeps
      (hboot := fun _ _ hs hq => doneForEachAccept_bootLine hs hq)
      (hraise := fun _ _ _ hs hq hr => doneForEachAccept_raise hs hq hr)
      (hline := fun _ _ _ hs hq hr => doneForEachAccept_line hs hq hr))
    (haccept := fun _ w hs hi => doneForEachAccept_accept hs hi w)

end Sys2Proof.Safety
end

section
/-! The command port (41_dispatch.md R130 to R137): acceptance, the activity pulse, words presented to a block
that is not idle, and how a command ends. -/

namespace Sys2Proof.Machine

open Sys2Proof.Safety

theorem resetDriven_of_presented {h : List HostMove} {w : CmdWord} (hw : presented h = some w) :
    resetDriven h = false := by
  unfold presented at hw
  split at hw <;> cases hw <;> rfl

/-- Settles O15: with a word presented no reset is driven, and acceptance is the state written out. -/
theorem idleStepAcceptsAndRuns : Obligations.IdleStepAcceptsAndRuns := by
  intro s w hi hw
  simp only [step, resetDriven_of_presented hw, hi, hw, Bool.false_eq_true, if_false]
  rfl

/-- Settles O35, from the lines of the pulse. -/
theorem activityPulseCompletes : Obligations.ActivityPulseCompletes := by
  intro s
  rw [exec, execActivityPulse, ← codeEnd_out, codeEnd_pulse]
  rfl

/-- Settles O42: the cycle of LOG, then the cycle of DONE. -/
theorem unrecognizedLogsAndEnds : Obligations.UnrecognizedLogsAndEnds := by
  intro code s hr
  obtain ⟨hr1, hr2⟩ : resetDriven s.host = false ∧ resetDriven (hostWhileBusy s.host) = false := by
    simpa [noResetFor] using hr
  rw [exec, execUnrecognized, runCommand_eq, commandCycles, startPos, runBusy_log hr1 _ 1, runBusy_done hr2 _ 0]
  simp [place, emit, hostAfter, normalResult]

/-! Words presented to a block that is not idle. -/

/-- Off IDLE a step whose move is no reset is a tick, the tape being the one that stays. -/
theorem step_of_move {s : State} (hs : s.seq ≠ .idle) {m : HostMove} (hm : m ≠ .reset) (rest : List HostMove) :
    step { s with host := m :: rest } = tick { s with host := hostWhileBusy (m :: rest) } := by
  have hr : resetDriven (m :: rest) = false := by
    cases m with
    | reset => exact absurd rfl hm
    | _ => rfl
  rw [step_of_not_idle (s := { s with host := m :: rest }) hs, cycle_of_no_reset hr rfl]

/-- A tick does not depend on the tape, once the tape it leaves is forgotten. -/
theorem tick_tape_forgotten (s : State) (h rest : List HostMove) :
    andThen (tick { s with host := h }) (fun t => .next { t with host := rest }) = tick { s with host := rest } := by
  rw [tick_tape s h, tick_tape s rest, andThen_assoc]
  rfl

/-- Settles O20: the tick is the same, and its tape is the one that the host's move leaves. -/
theorem wordsWhileBusyHaveNoEffect : Obligations.WordsWhileBusyHaveNoEffect := by
  intro s w rest hs
  have hoffer := step_of_move hs (m := .offer w) (by simp) rest
  have hhold := step_of_move hs (m := .hold w) (by simp) rest
  have hnothing := step_of_move hs (m := .nothing) (by simp) rest
  refine ⟨hoffer.trans hnothing.symm, fun t ht => ?_, ?_⟩
  · rw [hhold] at ht
    exact tick_host ht
  · rw [hhold, hnothing, tick_tape_forgotten, tick_tape_forgotten]

/-- The run of a command does not depend on the tape, as long as that drives no reset. -/
theorem runBusy_tape_forgotten (n : Nat) (s : State) {h : List HostMove} (hn : noReset h) :
    andThen (runBusy n { s with host := h }) (fun t => .next { t with host := [] }) =
      andThen (runBusy n { s with host := [] }) (fun t => .next { t with host := [] }) := by
  induction n generalizing s h with
  | zero => rfl
  | succ n ih =>
    cases hb : busy s.seq with
    | false =>
      rw [runBusy_of_not_busy (s := { s with host := h }) hb, runBusy_of_not_busy (s := { s with host := [] }) hb]
      rfl
    | true =>
      obtain ⟨u, hu⟩ := tick_answers s
      have htick (h' : List HostMove) : tick { s with host := h' } = .next { u with host := h' } := by
        rw [tick_tape, hu, andThen_next]
      rw [runBusy_succ (s := { s with host := h }) hb (resetDriven_of_not_mem hn) (htick _),
        runBusy_succ (s := { s with host := [] }) hb rfl (htick _)]
      exact ih u (noReset_hostWhileBusy hn)

/-- An instruction of the command port is the run of a command, with its own tape. -/
theorem exec_eq_runCommand {i : Instr} (hi : i.isCommand = true) (s : State) :
    ∃ (c : Cmd) (u : State), ∀ h, exec i { s with host := h } = runCommand c { u with host := h } := by
  cases i with
  | volumeUp => exact ⟨.volumeUp, s, fun _ => rfl⟩
  | volumeDown => exact ⟨.volumeDown, s, fun _ => rfl⟩
  | mute => exact ⟨.mute, s, fun _ => rfl⟩
  | power => exact ⟨.power, s, fun _ => rfl⟩
  | unrecognized code => exact ⟨.unrecognized, { s with cmd := { s.cmd with code := code } }, fun _ => rfl⟩
  | _ => cases hi

theorem runCommand_host (c : Cmd) (s : State) (h : List HostMove) :
    runCommand c { s with host := h } =
      runBusy (commandCycles c s) { s with seq := .busy c (startPos c), host := h } := by
  cases c <;> rfl

theorem runCommand_tape_forgotten (c : Cmd) (s : State) {h : List HostMove} (hn : noReset h) :
    andThen (runCommand c { s with host := h }) (fun t => .next { t with host := [] }) =
      andThen (runCommand c { s with host := [] }) (fun t => .next { t with host := [] }) := by
  rw [runCommand_host, runCommand_host]
  exact runBusy_tape_forgotten _ { s with seq := .busy c (startPos c) } hn

/-- Settles O21: both runs are the run with the empty tape. -/
theorem hostCannotDisturbACommand : Obligations.HostCannotDisturbACommand := by
  intro i s h h' hi hn hn'
  obtain ⟨c, u, e⟩ := exec_eq_runCommand hi s
  rw [e, e, runCommand_tape_forgotten c u hn, runCommand_tape_forgotten c u hn']

end Sys2Proof.Machine
end

section
/-! How a command ends without a reset (41_dispatch.md R132, R136, 60_exceptions.md R227): each command as its
pulse, the STEPs or the PRESS_POWER of its body, and its DONE. -/

namespace Sys2Proof.Machine

open Sys2Proof.Safety

theorem noReset_hostAfter (k : Nat) {h : List HostMove} (hn : noReset h) : noReset (hostAfter k h) := by
  induction k generalizing h with
  | zero => exact hn
  | succ k ih => exact ih (noReset_hostWhileBusy hn)

/-! Sequences of STEPs. -/

/-- A sequence of STEPs, if it makes one, binds the direction anew. -/
theorem runSteps_direction (d d' : Direction) (n : Nat) (s : State) :
    runSteps d (n + 1) { s with d := d' } = runSteps d (n + 1) s := rfl

/-- A completed STEP emits no DONE. -/
theorem dones_stepEnd (d : Direction) (p : Phase) (s : State) :
    dones (stepEnd d p (readBack s)).history = dones s.history := by
  simp [stepEnd, stepEvents, driveEvents, readBack, isDone]

/-- Only a finite VOL_W overflows, and STEPs that end so have emitted no DONE (60_exceptions.md R224, R227). -/
theorem runSteps_overflowed {d : Direction} {n : Nat} {s t : State} (h : runSteps d n s = .overflowed t) :
    s.params.volW ≠ none ∧ dones t.history = dones s.history := by
  induction n generalizing s with
  | zero => cases h
  | succ n ih =>
    rw [runSteps] at h
    cases hp : readPhase s with
    | none => simp [hp] at h
    | some p =>
      cases hv : volumeInRange s.params.volW (s.vol + dirInt d) with
      | true =>
        simp only [hp, hv, if_true] at h
        obtain ⟨hw, hd⟩ := ih h
        exact ⟨hw, hd.trans (dones_stepEnd d p s)⟩
      | false =>
        simp only [hp, hv, Bool.false_eq_true, if_false] at h
        cases h
        exact ⟨fun hw => by simp [hw] at hv, dones_stepEnd d p s⟩

/-- The loop index plays no part in how the STEPs of a command end. -/
theorem muteEnd_index (h : List HostMove) (j i : Nat) (d : Direction) (n : Nat) (s : State) :
    muteEnd h j (runSteps d n { s with i := i }) = muteEnd h j (runSteps d n s) := by
  rw [runSteps_index]
  cases runSteps d n s <;> rfl

/-! MUTE's branch and its loop. -/

theorem muteDirection_muteBranch (s : State) : muteDirection (muteBranch s) = muteDirection s := by
  obtain ⟨-, e⟩ | ⟨-, e⟩ | ⟨-, -, e⟩ := muteBranch_cases s <;> rw [e] <;> rfl

theorem muteBranch_n {s : State} (h0 : muteSteps s ≠ 0) : (muteBranch s).n = muteSteps s := by
  obtain ⟨-, e⟩ | ⟨-, e⟩ | ⟨-, h, -⟩ := muteBranch_cases s
  · rw [e]
  · rw [e]
  · exact absurd h h0

/-- An empty loop: DONE comes next. -/
theorem startLoop_muteBranch_zero {s : State} (h0 : muteSteps s = 0) (q : Seq) (h : List HostMove) :
    startLoop .mute (place q h (muteBranch s)) = place (.busy .mute .done) h (muteBranch s) :=
  if_pos ((muteSteps_muteBranch s).trans h0)

/-- The loop begins with its first STEP. -/
theorem startLoop_muteBranch {s : State} (h0 : muteSteps s ≠ 0) (q : Seq) (h : List HostMove) :
    startLoop .mute (place q h (muteBranch s)) =
      place (.busy .mute (.step 0)) h { muteBranch s with d := muteDirection s, i := 1 } := by
  rw [← muteDirection_muteBranch]
  exact if_neg fun e => h0 ((muteSteps_muteBranch s).symm.trans e)

/-- The loop of a MUTE that counts `muteSteps s` STEPs, from the branch on. -/
theorem runBusy_muteLoop (s : State) {h : List HostMove} (hn : noReset h) (q : Seq) :
    ∃ h' j, runBusy (14 * muteSteps s + 1) (startLoop .mute (place q h (muteBranch s))) =
      muteEnd h' j (runSteps (muteDirection s) (muteSteps s) (muteBranch s)) := by
  cases hm : muteSteps s with
  | zero =>
    rw [startLoop_muteBranch_zero hm]
    exact ⟨_, (muteBranch s).i, runBusy_done (resetDriven_of_not_mem hn) .mute 0 _⟩
  | succ r =>
    have h0 : muteSteps s ≠ 0 := by omega
    have hcount : 1 + r = (muteBranch s).n := by rw [muteBranch_n h0]; omega
    obtain ⟨h', j, e⟩ := runBusy_loop r { muteBranch s with d := muteDirection s, i := 1 } h hcount
      (noResetFor_of_not_mem _ hn)
    rw [startLoop_muteBranch h0, e]
    exact ⟨h', j, muteEnd_index h' j 1 _ (r + 1) { muteBranch s with d := muteDirection s }⟩

/-! The commands. -/

section Commands
variable {s : State} (hn : noReset s.host)
include hn

/-- A recognized command begins with the activity pulse (41_dispatch.md R134). -/
theorem runCommand_pulse {c : Cmd} {m : Nat} (hc : startPos c = .pulse 0) (hm : commandCycles c s = m + 3) :
    runCommand c s =
      runBusy m (startBody c (place (.busy c (.pulse 2)) (hostAfter 3 s.host) (afterPulse s))) := by
  rw [runCommand_eq, hm, hc, runBusy_pulse (noResetFor_of_not_mem 3 hn)]

/-- The pulse, one STEP, DONE (42_quadrature.md R157, R158). -/
theorem runCommand_volume {c : Cmd} {d : Direction}
    (hc : (c = .volumeUp ∧ d = .plus) ∨ (c = .volumeDown ∧ d = .minus)) :
    ∃ h, runCommand c s = muteEnd h s.i (runSteps d 1 (afterPulse s)) := by
  have hn3 : noReset (hostAfter 3 s.host) := noReset_hostAfter 3 hn
  have hn17 : noReset (hostAfter 14 (hostAfter 3 s.host)) := noReset_hostAfter 14 hn3
  have hbody : runCommand c s = runBusy (1 + 14)
      (place (.busy c (.step 0)) (hostAfter 3 s.host) { afterPulse s with d := d }) := by
    obtain ⟨rfl, rfl⟩ | ⟨rfl, rfl⟩ := hc <;> rw [runCommand_pulse hn (m := 15) rfl rfl] <;> rfl
  have hafter (h : List HostMove) (r : State) :
      afterStep c (place (.busy c (.step 13)) h r) = place (.busy c .done) h r := by
    obtain ⟨rfl, -⟩ | ⟨rfl, -⟩ := hc <;> rfl
  have hok : normalResult c = .ok := by obtain ⟨rfl, -⟩ | ⟨rfl, -⟩ := hc <;> rfl
  rw [hbody, runBusy_oneStep (noResetFor_of_not_mem 14 hn3), ← runSteps_direction d d, runSteps]
  cases readPhase { afterPulse s with d := d } with
  | none => exact ⟨_, rfl⟩
  | some p =>
    simp only [hafter]
    split
    · exact ⟨_, (runBusy_done (resetDriven_of_not_mem hn17) c 0 _).trans (by rw [hok]; rfl)⟩
    · exact ⟨_, rfl⟩

/-- The pulse, the branch, the STEPs that it counts, DONE (43_mute.md R180, R181, R185). -/
theorem runCommand_mute :
    ∃ h j, runCommand .mute s =
      muteEnd h j (runSteps (muteDirection s) (muteSteps s) (muteBranch (afterPulse s))) := by
  have hn3 : noReset (hostAfter 3 s.host) := noReset_hostAfter 3 hn
  have hcycles : commandCycles .mute s = 14 * muteSteps s + 1 + 1 + 3 := by
    show 3 + 1 + 14 * muteSteps s + 1 = _
    omega
  have hbranch := runBusy_branch (resetDriven_of_not_mem hn3) .mute (14 * muteSteps s + 1) (afterPulse s)
  rw [runCommand_pulse hn (c := .mute) rfl hcycles]
  exact hbranch ▸ runBusy_muteLoop (afterPulse s) (noReset_hostWhileBusy hn3) _

/-- The pulse, PRESS_POWER, DONE (44_power.md R200). -/
theorem runCommand_power :
    ∃ h u, runCommand .power s = .next (place .idle h (emit (.done .ok) u)) := by
  have hn3 : noReset (hostAfter 3 s.host) := noReset_hostAfter 3 hn
  have hn7 : noReset (hostAfter 4 (hostAfter 3 s.host)) := noReset_hostAfter 4 hn3
  have hbody : runCommand .power s = runBusy (1 + 4)
      (place (.busy .power (.power 0)) (hostAfter 3 s.host) (afterPulse s)) :=
    runCommand_pulse hn (m := 5) rfl rfl
  rw [hbody, runBusy_power (noResetFor_of_not_mem 4 hn3), codeEnd_power]
  exact ⟨_, _, runBusy_done (resetDriven_of_not_mem hn7) .power 0 _⟩

/-- LOG, DONE (41_dispatch.md R133). -/
theorem runCommand_unrecognized :
    ∃ h u, runCommand .unrecognized s = .next (place .idle h (emit (.done .unrecognized) u)) := by
  rw [runCommand_eq, commandCycles, startPos, runBusy_log (resetDriven_of_not_mem hn) _ 1]
  exact ⟨_, _, runBusy_done (resetDriven_of_not_mem (noReset_hostWhileBusy hn)) .unrecognized 0 _⟩

end Commands

/-! How they end. -/

/-- A command that started in `s` has ended in `t`, by its DONE, or by an overflow without one. -/
def CommandEnded (s t : State) : Prop :=
  (t.seq = .idle ∧ ∃ r, t.history.getLast? = some (t.now, .done r)) ∨
    (t.seq = .fault .volumeOverflow ∧ s.params.volW ≠ none ∧ dones t.history = dones s.history)

theorem commandEnded_done (s : State) (h : List HostMove) (r : Result) (u : State) :
    CommandEnded s (place .idle h (emit (.done r) u)) :=
  .inl ⟨rfl, r, List.getLast?_append_of_ne_nil _ (by simp)⟩

theorem dones_afterPulse (s : State) : dones (afterPulse s).history = dones s.history := by
  simp [afterPulse, isDone]

theorem muteBranch_history (s : State) : (muteBranch s).history = s.history := by
  obtain ⟨-, e⟩ | ⟨-, e⟩ | ⟨-, -, e⟩ := muteBranch_cases s <;> rw [e]

theorem muteBranch_params (s : State) : (muteBranch s).params = s.params := (registersKept_afterLine .branch s).1

/-- STEPs end the command they make up, whichever way they end; `b` is the state that they start in. -/
theorem commandEnded_muteEnd {s b : State} (hp : b.params = s.params) (hd : dones b.history = dones s.history)
    (h : List HostMove) (j : Nat) (d : Direction) (n : Nat) :
    ∃ t, muteEnd h j (runSteps d n b) = .next t ∧ CommandEnded s t := by
  cases e : runSteps d n b with
  | completed u | aborted u => exact ⟨_, rfl, commandEnded_done s h _ _⟩
  | overflowed u =>
    obtain ⟨hw, hu⟩ := runSteps_overflowed e
    exact ⟨_, rfl, .inr ⟨rfl, hp ▸ hw, hu.trans hd⟩⟩

/-- Settles O53, from what each command is without a reset. -/
theorem commandsRunToCompletion : Obligations.CommandsRunToCompletion := by
  suffices h : ∀ (i : Instr) (s : State), i.isCommand = true → noReset s.host →
      ∃ t, exec i s = .next t ∧ CommandEnded s t from h
  intro i s hi hn
  have hvolume {c : Cmd} {d : Direction} (hc : (c = .volumeUp ∧ d = .plus) ∨ (c = .volumeDown ∧ d = .minus)) :
      ∃ t, runCommand c s = .next t ∧ CommandEnded s t := by
    obtain ⟨h, e⟩ := runCommand_volume hn hc
    rw [e]
    exact commandEnded_muteEnd (s := s) (b := afterPulse s) rfl (dones_afterPulse s) ..
  cases i with
  | volumeUp => exact hvolume (.inl ⟨rfl, rfl⟩)
  | volumeDown => exact hvolume (.inr ⟨rfl, rfl⟩)
  | mute =>
    obtain ⟨h, j, e⟩ := runCommand_mute hn
    rw [exec, execMute, e]
    have hdones : dones (muteBranch (afterPulse s)).history = dones s.history := by
      rw [muteBranch_history, dones_afterPulse]
    exact commandEnded_muteEnd (s := s) (muteBranch_params (afterPulse s)) hdones ..
  | power =>
    obtain ⟨h, u, e⟩ := runCommand_power hn
    exact ⟨_, e, commandEnded_done s h _ u⟩
  | unrecognized code =>
    obtain ⟨h, u, e⟩ := runCommand_unrecognized (s := { s with cmd := { s.cmd with code := code } }) hn
    exact ⟨_, e, commandEnded_done s h _ u⟩
  | _ => cases hi

end Sys2Proof.Machine
end

section
/-! Phase arithmetic (42_quadrature.md R150, R153, R154, R159): `mod4` respects congruence modulo 4, and each
phase drive is one advance from the drive before it. -/

namespace Sys2Proof.Machine

theorem mod4_val (x : Int) : ((mod4 x).val : Int) = x % 4 :=
  Int.toNat_of_nonneg (Int.emod_nonneg x (by decide))

theorem mod4_congr {x y : Int} (h : x % 4 = y % 4) : mod4 x = mod4 y := by simp only [mod4, h]

@[simp] theorem mod4_of_phase (p : Phase) : mod4 p.val = p := by
  have hval := mod4_val p.val
  ext
  omega

/-- Advances add up (00_scope.md R11). -/
@[simp] theorem mod4_mod4_add (x y : Int) : mod4 ((mod4 x).val + y) = mod4 (x + y) :=
  mod4_congr (by rw [mod4_val, Int.emod_add_emod])

/-- Settles O7: four advances by +1 add 4, which is 0 modulo 4. -/
theorem phaseArithmeticIsEuclidean : Obligations.PhaseArithmeticIsEuclidean := by
  refine ⟨fun x => ⟨x / 4, ?_⟩, fun p => ?_, rfl⟩
  · rw [mod4_val, Int.mul_ediv_add_emod]
  · simp only [mod4_mod4_add]
    have hfour : ((p.val : Int) + 1 + 1 + 1 + 1) % 4 = p.val % 4 := by omega
    rw [mod4_congr hfour, mod4_of_phase]

theorem drivePhase_zero (p : Phase) (d : Direction) : drivePhase p d 0 = p := by simp [drivePhase]

/-- Three advances are one step back (R154). -/
theorem drivePhase_three (p : Phase) (d : Direction) : drivePhase p d 3 = mod4 (p.val - dirInt d) := by
  have hthree : (p.val + dirInt d * 3) % 4 = (p.val - dirInt d) % 4 := by omega
  exact mod4_congr hthree

/-- Each drive is one advance from the one before it. -/
theorem drivePhase_succ (p : Phase) (d : Direction) {k k' : Fin 4} (h : k'.val = k.val + 1) :
    drivePhase p d k' = mod4 ((drivePhase p d k).val + dirInt d) := by
  simp only [drivePhase, mod4_mod4_add, h, Nat.cast_add, Nat.cast_one, mul_add, mul_one, add_assoc]

/-- Settles O8: of two drives in a row one is the successor of the other in the cycle of phases, the later
one for +1 and the earlier one for -1. -/
theorem drivesChangeOneLineAtATime : Obligations.DrivesChangeOneLineAtATime := by
  refine fun p d => ⟨drivePhase_zero p d, drivePhase_three p d, fun k k' h => ?_⟩
  rw [drivePhase_succ p d h]
  generalize drivePhase p d k = q
  cases d with
  | plus =>
    rw [dirInt, mod4_val_add_one]
    exact phasePair_fst_eq_succ_iff q
  | minus =>
    have hback : mod4 (q.val + dirInt .minus) + 1 = q := by
      rw [← mod4_val_add_one, mod4_mod4_add, dirInt, neg_add_cancel_right, mod4_of_phase]
    have hone := phasePair_fst_eq_succ_iff (mod4 (q.val + dirInt .minus))
    rw [hback] at hone
    rwa [eq_comm, ne_comm]

end Sys2Proof.Machine
end

section
/-! The read-back of a STEP and the three ways a STEP ends (42_quadrature.md R151 to R156, R160): it completes,
it resolves no phase, or its volume leaves a finite VOL_W. -/

namespace Sys2Proof.Machine

open Sys2Proof.Safety

/-- Settles O33, by the phase of each pair. -/
theorem resolveWritesThePhase : Obligations.ResolveWritesThePhase := fun _ => ⟨rfl, rfl, rfl, rfl⟩

/-- Settles O34: a pair with an INV component has no phase. -/
theorem resolveRaisesProtocolError : Obligations.ResolveRaisesProtocolError := by
  intro sd su s h
  rw [exec, execResolve, resolvePair_eq_none.2 h]
  rfl

/-- The read-back written out: both lines released, two answers taken, four events at one instant (R152). -/
theorem readBack_eq (s : State) :
    readBack s = { s with
      mode := { s.mode with vdown := .input, vup := .input }
      sensed := { s.sensed with vdown := (readBack s).sensed.vdown, vup := (readBack s).sensed.vup }
      env := s.env.tail.tail
      history := s.history ++ [(s.now, .mode .vdown .input), (s.now, .mode .vup .input),
        (s.now, .sample .vdown (readBack s).sensed.vdown), (s.now, .sample .vup (readBack s).sensed.vup)] } := by
  simp [readBack, sense, setModeIn, emit]

theorem readBack_history (s : State) :
    (readBack s).history = s.history ++ [(s.now, .mode .vdown .input), (s.now, .mode .vup .input),
      (s.now, .sample .vdown (readBack s).sensed.vdown), (s.now, .sample .vup (readBack s).sensed.vup)] :=
  congrArg State.history (readBack_eq s)

theorem readBack_sensed_of_env {s : State} {a b : SenseLevel} {rest : List SenseLevel}
    (h : s.env = a :: b :: rest) : (readBack s).sensed.vdown = a ∧ (readBack s).sensed.vup = b :=
  pair_answers_of_env (s := setModeIn .vup (setModeIn .vdown s)) h

/-- Settles O37: SET_MODE2(IN) has released the lines that READ2 reads. -/
theorem readBackTakesTwoAnswers : Obligations.ReadBackTakesTwoAnswers := by
  refine fun s => ⟨?_, fun a b rest h => ?_⟩
  · rw [exec_pair, andThen_next, exec_pair, pairOp, pairOp, readPair_of_input rfl rfl]
    rfl
  · obtain ⟨hd, hu⟩ := readBack_sensed_of_env h
    have hback := readBack_eq s
    rw [hd, hu, h] at hback
    exact ⟨readPhase_of_env h, congrArg State.env hback, hback⟩

theorem exec_step (d : Direction) (s : State) : exec (.step d) s = execStep d s := rfl

/-- Settles O36, from the lines of STEP. -/
theorem stepDrivesFourPhases : Obligations.StepDrivesFourPhases := by
  intro d s p hp hv
  rw [exec_step, execStep_resolved hp hv]

/-- Settles O38: the command ends at its RESOLVE, right after the read-back. -/
theorem stepWithoutAPhaseDrivesNothing : Obligations.StepWithoutAPhaseDrivesNothing := by
  intro d s hp
  rw [exec_step, execStep_unresolved hp]
  refine ⟨_, (readBack s).sensed.vdown, (readBack s).sensed.vup, rfl,
    resolvePair_eq_none.1 hp, ?_, rfl, rfl, rfl, rfl, rfl, rfl, rfl, rfl, rfl, rfl, rfl, rfl, rfl, rfl⟩
  simp [readBack_history]

/-- How a STEP(d) in `s` ends. -/
inductive StepOutcome (d : Direction) (s : State) : State → Prop
  | completed {p : Phase} (hp : readPhase s = some p)
    (hv : volumeInRange s.params.volW (s.vol + dirInt d) = true) : StepOutcome d s (stepEnd d p (readBack s))
  | overflowed {p : Phase} (hp : readPhase s = some p)
    (hv : volumeInRange s.params.volW (s.vol + dirInt d) = false) :
    StepOutcome d s (enterFault .volumeOverflow { stepEnd d p (readBack s) with vol := s.vol })
  | unresolved (hp : readPhase s = none) :
    StepOutcome d s (endCommand .protocolError { readBack s with d := d })

theorem stepOutcome_of_exec {d : Direction} {s t : State} (h : exec (.step d) s = .next t) :
    StepOutcome d s t := by
  rw [exec_step] at h
  cases hp : readPhase s with
  | none =>
    cases (execStep_unresolved hp).symm.trans h
    exact .unresolved hp
  | some p =>
    cases hv : volumeInRange s.params.volW (s.vol + dirInt d) with
    | true =>
      cases (execStep_resolved hp hv).symm.trans h
      exact .completed hp hv
    | false =>
      cases (execStep_overflow hp hv).symm.trans h
      exact .overflowed hp hv

/-- However a STEP ends, the history goes on from its read-back. -/
theorem StepOutcome.history_extends {d : Direction} {s t : State} (h : StepOutcome d s t) :
    (readBack s).history <+: t.history := by
  cases h <;> exact ⟨_, rfl⟩

/-- A STEP that resolves a phase and ends in no fault has completed. -/
theorem StepOutcome.eq_stepEnd {d : Direction} {s t : State} {p : Phase} (h : StepOutcome d s t)
    (hf : faulted t = none) (hp : readPhase s = some p) : t = stepEnd d p (readBack s) := by
  cases h with
  | completed hq _ => cases hp.symm.trans hq; rfl
  | overflowed => cases hf
  | unresolved hq => cases hp.symm.trans hq

end Sys2Proof.Machine
end

section
/-! VOLUME_UP and VOLUME_DOWN (42_quadrature.md R157, R158, 41_dispatch.md R136): the pulse, one STEP, DONE,
with a host that drives no reset in the cycles that they take. -/

namespace Sys2Proof.Machine

open Sys2Proof.Safety

section VolumeCommands
variable {c : Cmd} {d : Direction} {s : State}
variable (hc : (c = .volumeUp ∧ d = .plus) ∨ (c = .volumeDown ∧ d = .minus))
include hc

/-- After the pulse a volume command is STEP(d) and the cycle of DONE. -/
theorem runCommand_volume_body (hr : noResetFor 3 s.host = true) :
    runCommand c s =
      runBusy (1 + 14) (place (.busy c (.step 0)) (hostAfter 3 s.host) { afterPulse s with d := d }) := by
  obtain ⟨rfl, rfl⟩ | ⟨rfl, rfl⟩ := hc <;> exact runBusy_pulse hr _ 15 s

/-- A volume command whose STEP completes ends with DONE(OK). -/
theorem runCommand_volume_completes {p : Phase} (hr : noResetFor 18 s.host = true)
    (hp : readPhase (afterPulse s) = some p) (hv : volumeInRange s.params.volW (s.vol + dirInt d) = true) :
    runCommand c s =
      .next (place .idle (hostAfter 18 s.host) (emit (.done .ok) (stepEnd d p (readBack (afterPulse s))))) := by
  rw [noResetFor_add 3 15, noResetFor_add 14 1, Bool.and_eq_true, Bool.and_eq_true] at hr
  obtain ⟨hr3, hr14, hr1⟩ := hr
  have hr17 : resetDriven (hostAfter 14 (hostAfter 3 s.host)) = false := by simpa [noResetFor] using hr1
  have hp' : readPhase { afterPulse s with d := d } = some p := hp
  have hv' : volumeInRange (afterPulse s).params.volW ((afterPulse s).vol + dirInt d) = true := hv
  rw [runCommand_volume_body hc hr3, runBusy_oneStep hr14, hp']
  simp only [hv', if_true]
  obtain ⟨rfl, rfl⟩ | ⟨rfl, rfl⟩ := hc <;> exact runBusy_done hr17 _ 0 _

/-- A volume command whose read-back is no phase ends there, with DONE(PROTOCOL_ERROR). -/
theorem runCommand_volume_unresolved (hr : noResetFor 6 s.host = true)
    (hp : readPhase (afterPulse s) = none) :
    runCommand c s = .next (place .idle (hostAfter 6 s.host)
      (emit (.done .protocolError) (readBack { afterPulse s with d := d }))) := by
  rw [noResetFor_add 3 3, Bool.and_eq_true] at hr
  rw [runCommand_volume_body hc hr.1]
  exact runBusy_unresolved hr.2 c 12 (s := { afterPulse s with d := d }) hp

end VolumeCommands

theorem exec_volumeUp (s : State) : exec .volumeUp s = runCommand .volumeUp s := rfl

theorem exec_volumeDown (s : State) : exec .volumeDown s = runCommand .volumeDown s := rfl

/-- Settles O43. -/
theorem volumeUpCompletes : Obligations.VolumeUpCompletes := by
  intro s p hr hp hv
  rw [exec_volumeUp, runCommand_volume_completes (.inl ⟨rfl, rfl⟩) hr hp hv]
  exact ⟨_, rfl, rfl, rfl, rfl, rfl⟩

/-- Settles O44. -/
theorem volumeDownCompletes : Obligations.VolumeDownCompletes := by
  intro s p hr hp hv
  rw [exec_volumeDown, runCommand_volume_completes (.inr ⟨rfl, rfl⟩) hr hp hv]
  exact ⟨_, rfl, rfl, rfl, rfl, rfl⟩

/-- Settles O45, for the direction of each command. -/
theorem volumeCommandsSurfaceProtocolError : Obligations.VolumeCommandsSurfaceProtocolError := by
  rintro s d i (⟨rfl, rfl⟩ | ⟨rfl, rfl⟩) hr hp
  · rw [exec_volumeUp, runCommand_volume_unresolved (.inl ⟨rfl, rfl⟩) hr hp]
    rfl
  · rw [exec_volumeDown, runCommand_volume_unresolved (.inr ⟨rfl, rfl⟩) hr hp]
    rfl

end Sys2Proof.Machine
end

section
/-! Two STEPs under QUIET_ENV (42_quadrature.md R163, 40_line_primitives.md R111): a quiet read-back is the pair
last driven, and a completed STEP has driven its last phase. -/

namespace Sys2Proof.Safety

open Sys2Proof.Machine

/-- A quiet environment answers a read-back with the pair last driven, which is always a phase. -/
theorem readPhase_of_quietHistory {e0 : PerLine Level} {s : State} {h : History} (hq : quietHistory e0 h)
    (hpre : (readBack s).history <+: h) :
    readPhase s = some (phaseIndex (lastDriven e0 .vdown s.history) (lastDriven e0 .vup s.history)) := by
  obtain ⟨rest, rfl⟩ := hpre
  have hdown : (readBack s).sensed.vdown = .valid (lastDriven e0 .vdown s.history) := by
    rw [hq (s.history ++ [(s.now, .mode .vdown .input), (s.now, .mode .vup .input)]) s.now .vdown
      (readBack s).sensed.vdown ((s.now, .sample .vup (readBack s).sensed.vup) :: rest) (by rw [readBack_history]; simp)]
    simp [lastDriven]
  have hup : (readBack s).sensed.vup = .valid (lastDriven e0 .vup s.history) := by
    rw [hq (s.history ++ [(s.now, .mode .vdown .input), (s.now, .mode .vup .input),
      (s.now, .sample .vdown (readBack s).sensed.vdown)]) s.now .vup
      (readBack s).sensed.vup rest (by rw [readBack_history]; simp)]
    simp [lastDriven]
  rw [readPhase, hdown, hup, resolvePair]

/-- A completed STEP has last driven each line to its level at offset 3 (42_quadrature.md R154). -/
theorem lastDriven_stepEnd (e0 : PerLine Level) (d : Direction) (p : Phase) (r : State) :
    lastDriven e0 .vdown (stepEnd d p r).history = (phasePair (mod4 (p.val + dirInt d * 3))).1 ∧
      lastDriven e0 .vup (stepEnd d p r).history = (phasePair (mod4 (p.val + dirInt d * 3))).2 := by
  simp [lastDriven, stepEnd, stepEvents, driveEvents]

/-- Settles O60: both read-backs are quiet, so both STEPs resolve and complete, the second one from the phase
that the first one drove last. -/
theorem roundTripUnderQuietEnvironment : Obligations.RoundTripUnderQuietEnvironment := by
  intro e0 d1 d2 s t u h1 h2 hf1 hf2 hq
  have o1 := stepOutcome_of_exec h1
  have o2 := stepOutcome_of_exec h2
  have hpre : (readBack s).history <+: u.history := by
    have hback : t.history <+: (readBack t).history := ⟨_, (readBack_history t).symm⟩
    exact (o1.history_extends.trans hback).trans o2.history_extends
  obtain ⟨p, hp⟩ : ∃ p, readPhase s = some p := ⟨_, readPhase_of_quietHistory hq hpre⟩
  obtain rfl := o1.eq_stepEnd hf1 hp
  obtain ⟨hdown, hup⟩ := lastDriven_stepEnd e0 d1 p (readBack s)
  have hp2 := readPhase_of_quietHistory hq o2.history_extends
  rw [hdown, hup, phaseIndex_phasePair, mul_comm] at hp2
  obtain rfl := o2.eq_stepEnd hf2 hp2
  refine ⟨p, hp, hp2, ?_⟩
  rintro rfl rfl
  have hvol : s.vol + dirInt .plus + dirInt .minus = s.vol := Int.add_neg_cancel_right s.vol 1
  have hlast : mod4 ((mod4 (p.val + 3 * dirInt .plus)).val + dirInt .minus * 3) = p := by
    rw [mod4_mod4_add, dirInt, dirInt]
    simp
  refine ⟨hvol, ?_⟩
  simp only [stepEnd, hlast]

end Sys2Proof.Safety
end

section
/-! MUTE (43_mute.md R180 to R185, R188): what the pulse, the branch and the STEPs done so far leave, the loop
by it, and the four ways in which a MUTE ends: after all its STEPs, at one that does not resolve, by an
overflow, or without a STEP. -/

namespace Sys2Proof.Machine

open Sys2Proof.Safety

theorem exec_mute (s : State) : exec .mute s = runCommand .mute s := rfl

/-- Settles O47: the run of a MUTE ends as its STEPs do. -/
theorem muteRunsItsSteps : Obligations.MuteRunsItsSteps := by
  intro s hn
  obtain ⟨h, j, e⟩ := runCommand_mute hn
  rw [← exec_mute] at e
  cases hruns : runSteps (muteDirection s) (muteSteps s) (muteBranch (afterPulse s)) with
  | completed t | aborted t | overflowed t =>
    rw [hruns] at e
    exact ⟨_, e, rfl⟩

/-! What is counted at entry. -/

/-- Where `j` STEPs of the mute branch take the volume. -/
theorem vol_add_of_pos {s : State} (h : 0 < s.vol) (j : Nat) :
    s.vol + dirInt (muteDirection s) * j = s.vol - j := by
  rw [muteDirection, if_pos h, dirInt]
  omega

/-- Where `j` STEPs of an unmute take the volume. -/
theorem vol_add_of_not_pos {s : State} (h : ¬ 0 < s.vol) (j : Nat) :
    s.vol + dirInt (muteDirection s) * j = s.vol + j := by
  rw [muteDirection, if_neg h, dirInt]
  omega

theorem muteSteps_of_unmute {s : State} (h : s.vol < 0) (hm : s.params.muteOnNegative = .unmute) :
    muteSteps s = s.old.toNat := by
  rw [muteSteps, if_neg (by omega), if_neg (by omega), hm]
  show (max s.old 0).toNat = s.old.toNat
  omega

theorem muteSteps_of_noop {s : State} (h : s.vol < 0) (hm : s.params.muteOnNegative = .noop) :
    muteSteps s = 0 := by
  rw [muteSteps, if_neg (by omega), if_neg (by omega), hm]

/-- The branch writes `old` and `n` alone, and `old` at a positive volume alone (43_mute.md R180, R182). -/
theorem muteBranch_eq (s : State) :
    muteBranch s = { s with old := if 0 < s.vol then s.vol else s.old, n := (muteBranch s).n } := by
  obtain ⟨h, e⟩ | ⟨h, e⟩ | ⟨h, -, e⟩ := muteBranch_cases s
  · rw [e, if_pos h]
  · rw [e, if_neg (by omega)]
  · rw [e, if_neg (by omega)]

/-- Between two volumes of the register's range a STEP stays in it. -/
theorem volumeInRange_step {w : Option Nat} {v : Int} {d : Direction} {j : Nat} (h : volumeInRange w v = true)
    (h' : volumeInRange w (v + dirInt d * (j + 1 : Nat)) = true) : volumeInRange w (v + dirInt d) = true := by
  cases d with
  | plus => exact volumeInRange_between h h' (by simp [dirInt]) (by simp only [dirInt]; omega)
  | minus => exact volumeInRange_between h' h (by simp only [dirInt]; omega) (by simp only [dirInt]; omega)

/-! The loop. -/

/-- What stands in `t` when a MUTE that was entered in `s` has done its pulse, its branch and `j` STEPs. -/
structure MuteLoop (s : State) (j : Nat) (t : State) : Prop where
  vol : t.vol = s.vol + dirInt (muteDirection s) * j
  old : t.old = if 0 < s.vol then s.vol else s.old
  act : t.act = .low
  now : t.now = s.now + s.params.tBlink + j * (3 * s.params.tSettle + s.params.tTail)
  pwr : t.mode.pwr = s.mode.pwr
  released : 0 < j → t.mode = { s.mode with vdown := .input, vup := .input }
  latPwr : t.lat.pwr = s.lat.pwr
  params : t.params = s.params

/-- The loop begins after the pulse and the branch. -/
theorem muteLoop_zero (s : State) : MuteLoop s 0 (muteBranch (afterPulse s)) := by
  rw [muteBranch_eq]
  exact ⟨by simp [afterPulse], rfl, rfl, by simp [afterPulse], rfl, fun h => absurd h (lt_irrefl 0), rfl, rfl⟩

section MuteLoop
variable {s r : State} {j : Nat} (hr : MuteLoop s j r)
include hr

/-- The read-back of a STEP releases the volume lines. -/
theorem MuteLoop.mode_readBack : (readBack r).mode = { s.mode with vdown := .input, vup := .input } :=
  congrArg (PerLine.mk .input .input) hr.pwr

/-- A STEP that does not resolve has released them, and changed nothing else of these. -/
theorem MuteLoop.afterUnresolved (d : Direction) : MuteLoop s j { readBack r with d := d } :=
  ⟨hr.vol, hr.old, hr.act, hr.now, hr.pwr, fun _ => hr.mode_readBack, hr.latPwr, hr.params⟩

/-- One more STEP that resolves (42_quadrature.md R155, R160). -/
theorem MuteLoop.afterStepEnd (p : Phase) :
    MuteLoop s (j + 1) (stepEnd (muteDirection s) p (readBack r)) where
  vol := by simp only [stepEnd, readBack_vol, hr.vol]; push_cast; ring
  old := hr.old
  act := hr.act
  now := by simp only [stepEnd, readBack_now, readBack_params, hr.now, hr.params]; ring
  pwr := hr.pwr
  released _ := by simp only [stepEnd, hr.mode_readBack]
  latPwr := hr.latPwr
  params := hr.params

/-- With valid answers for `i` STEPs that stay in the range of the volume, those STEPs complete and have used
exactly these answers; what remains of the loop goes on from there. -/
theorem MuteLoop.runSteps_add {i : Nat} {answers : List Level} {rest : List SenseLevel}
    (henv : r.env = answers.map .valid ++ rest) (hlen : answers.length = 2 * i)
    (hv : volumeInRange s.params.volW r.vol = true)
    (hv' : volumeInRange s.params.volW (r.vol + dirInt (muteDirection s) * i) = true) (m : Nat) :
    ∃ t, MuteLoop s (j + i) t ∧ t.env = rest ∧
      runSteps (muteDirection s) (i + m) r = runSteps (muteDirection s) m t := by
  induction i generalizing j r answers with
  | zero =>
    obtain rfl := List.length_eq_zero_iff.1 hlen
    exact ⟨r, hr, henv, by rw [Nat.zero_add]⟩
  | succ i ih =>
    match answers, hlen with
    | a :: b :: answers, hlen =>
      have hp : readPhase r = some (phaseIndex a b) := readPhase_of_env henv
      have hstep := volumeInRange_step hv hv'
      have henv' : (stepEnd (muteDirection s) (phaseIndex a b) (readBack r)).env = answers.map .valid ++ rest := by
        rw [readBack_eq, henv]
        rfl
      have hend : r.vol + dirInt (muteDirection s) + dirInt (muteDirection s) * i =
          r.vol + dirInt (muteDirection s) * (i + 1 : Nat) := by push_cast; ring
      obtain ⟨t, ht, htenv, hruns⟩ := ih (hr.afterStepEnd (phaseIndex a b)) henv' (by simpa [Nat.mul_succ] using hlen)
        hstep (hend ▸ hv')
      refine ⟨t, (show j + 1 + i = j + (i + 1) by omega) ▸ ht, htenv, ?_⟩
      rw [Nat.succ_add, runSteps, hp, hr.params]
      simp only [hstep, if_true, hruns]

/-- In the mute branch (43_mute.md R182). -/
theorem MuteLoop.volumes_of_pos (h : 0 < s.vol) : r.old = s.vol ∧ r.vol = s.vol - j :=
  ⟨hr.old.trans (if_pos h), hr.vol.trans (vol_add_of_pos h j)⟩

/-- In an unmute (43_mute.md R183, R184). -/
theorem MuteLoop.volumes_of_not_pos (h : ¬ 0 < s.vol) : r.old = s.old ∧ r.vol = s.vol + j :=
  ⟨hr.old.trans (if_neg h), hr.vol.trans (vol_add_of_not_pos h j)⟩

end MuteLoop

/-! How a MUTE ends. -/

/-- A MUTE that was entered in `s` has ended in `t` with the result `res`, after `j` STEPs. -/
structure MuteEnded (res : Result) (s : State) (j : Nat) (t : State) : Prop extends MuteLoop s j t where
  idle : t.seq = .idle
  done : t.history.getLast? = some (t.now, .done res)

theorem MuteLoop.ended {s t : State} {j : Nat} (ht : MuteLoop s j t) (res : Result) (h : List HostMove) (i : Nat) :
    MuteEnded res s j (place .idle h (emit (.done res) { t with i := i })) where
  toMuteLoop := ⟨ht.vol, ht.old, ht.act, ht.now, ht.pwr, ht.released, ht.latPwr, ht.params⟩
  idle := rfl
  done := List.getLast?_concat ..

section Answered
variable {s : State} {answers : List Level} {j : Nat}
variable (hn : noReset s.host) (hlen : answers.length = 2 * j) (hv : volumeInRange s.params.volW s.vol = true)
variable (hv' : volumeInRange s.params.volW (s.vol + dirInt (muteDirection s) * j) = true)
include hn hlen hv hv'

/-- A MUTE whose first `j` STEPs have valid answers ends as the rest of its STEPs does. -/
theorem exec_mute_answered {m : Nat} {rest : List SenseLevel} (henv : s.env = answers.map .valid ++ rest)
    (hm : muteSteps s = j + m) :
    ∃ h i t, exec .mute s = muteEnd h i (runSteps (muteDirection s) m t) ∧ MuteLoop s j t ∧ t.env = rest := by
  obtain ⟨h, i, e⟩ := runCommand_mute hn
  have hzero := muteLoop_zero s
  have hvol : (muteBranch (afterPulse s)).vol = s.vol := by rw [muteBranch_eq]; rfl
  have henv0 : (muteBranch (afterPulse s)).env = answers.map .valid ++ rest := by rw [muteBranch_eq]; exact henv
  rw [← hvol] at hv hv'
  obtain ⟨t, ht, htenv, hruns⟩ := hzero.runSteps_add henv0 hlen hv hv' m
  rw [Nat.zero_add] at ht
  exact ⟨h, i, t, by rw [exec_mute, e, hm, hruns], ht, htenv⟩

/-- With valid answers for all its STEPs a MUTE completes (43_mute.md R182 to R184, R188). -/
theorem exec_mute_completes {rest : List SenseLevel} (henv : s.env = answers.map .valid ++ rest)
    (hj : muteSteps s = j) : ∃ t, exec .mute s = .next t ∧ MuteEnded .ok s j t ∧ t.env = rest := by
  obtain ⟨h, i, t, e, ht, htenv⟩ := exec_mute_answered hn hlen hv hv' (m := 0) henv hj
  exact ⟨_, e, ht.ended .ok h i, htenv⟩

/-- A MUTE whose next read-back is no phase ends there (43_mute.md R185, 42_quadrature.md R156). -/
theorem exec_mute_aborts {a b : SenseLevel} {rest : List SenseLevel}
    (henv : s.env = answers.map .valid ++ a :: b :: rest) (hinv : a = .inv ∨ b = .inv) (hj : j < muteSteps s) :
    ∃ t, exec .mute s = .next t ∧ MuteEnded .protocolError s j t ∧
      t.mode = { s.mode with vdown := .input, vup := .input } ∧ t.env = rest := by
  obtain ⟨m, hm⟩ := Nat.exists_eq_add_of_lt hj
  obtain ⟨h, i, t, e, ht, htenv⟩ := exec_mute_answered hn hlen hv hv' (m := m + 1) henv hm
  have hp : readPhase t = none := (readPhase_of_env htenv).trans (resolvePair_eq_none.2 hinv)
  rw [runSteps, hp] at e
  refine ⟨_, e, (ht.afterUnresolved _).ended .protocolError h i, ht.mode_readBack, ?_⟩
  show t.env.tail.tail = rest
  rw [htenv]
  rfl

end Answered

/-- Settles O48: the STEPs of the mute branch end at volume 0, which every register holds. -/
theorem muteGoesToZero : Obligations.MuteGoesToZero := by
  intro s answers rest hn hpos hv henv hlen
  have hcount : (muteSteps s : Int) = s.vol := by rw [muteSteps_of_pos hpos]; omega
  have hend : volumeInRange s.params.volW (s.vol + dirInt (muteDirection s) * muteSteps s) = true := by
    rw [vol_add_of_pos hpos, hcount, sub_self]
    exact volumeInRange_zero _
  obtain ⟨t, e, ht, htenv⟩ := exec_mute_completes hn (by omega) hv hend henv rfl
  obtain ⟨hold, hvol⟩ := ht.volumes_of_pos hpos
  refine ⟨t, e, by omega, hold, ht.idle, ht.act, ?_, ht.released (by omega), ht.latPwr, htenv, ht.done⟩
  rw [ht.now, ← hcount]
  push_cast
  rfl

/-- A MUTE that is an unmute goes up by a positive `old` and does not write it (43_mute.md R183, R184). -/
theorem exec_mute_unmutes {s : State} {answers : List Level} {rest : List SenseLevel} (hn : noReset s.host)
    (hvol : ¬ 0 < s.vol) (hcount : muteSteps s = s.old.toNat) (hold : 0 < s.old)
    (hv : volumeInRange s.params.volW s.vol = true) (hend : volumeInRange s.params.volW (s.vol + s.old) = true)
    (henv : s.env = answers.map .valid ++ rest) (hlen : (answers.length : Int) = 2 * s.old) :
    ∃ t, exec .mute s = .next t ∧ MuteEnded .ok s s.old.toNat t ∧ t.vol = s.vol + s.old ∧ t.old = s.old ∧
      t.env = rest := by
  have hcast : (s.old.toNat : Int) = s.old := Int.toNat_of_nonneg hold.le
  have hend' : volumeInRange s.params.volW (s.vol + dirInt (muteDirection s) * s.old.toNat) = true := by
    rw [vol_add_of_not_pos hvol, hcast]
    exact hend
  obtain ⟨t, e, ht, htenv⟩ := exec_mute_completes hn (by omega) hv hend' henv hcount
  obtain ⟨htold, htvol⟩ := ht.volumes_of_not_pos hvol
  exact ⟨t, e, ht, hcast ▸ htvol, htold, htenv⟩

/-- Settles O49. -/
theorem unmuteRestoresTheVolume : Obligations.UnmuteRestoresTheVolume := by
  intro s answers rest hn hvol hold hend henv hlen
  have hv : volumeInRange s.params.volW s.vol = true := hvol ▸ volumeInRange_zero _
  have hsum : s.vol + s.old = s.old := by omega
  obtain ⟨t, e, ht, htvol, htold, htenv⟩ :=
    exec_mute_unmutes hn (by omega) (muteSteps_of_zero hvol) hold hv (hsum.symm ▸ hend) henv hlen
  refine ⟨t, e, htvol.trans hsum, htold, ht.idle, ht.act, ?_, ht.released (by omega), ht.latPwr, htenv, ht.done⟩
  rw [ht.now]
  push_cast [Int.toNat_of_nonneg hold.le]
  rfl

/-- Settles O51. -/
theorem muteAtNegativeVolumeUnmutes : Obligations.MuteAtNegativeVolumeUnmutes := by
  intro s answers rest hn hneg hold hmode hv hend henv hlen
  have hcount : muteSteps s = s.old.toNat := muteSteps_of_unmute hneg hmode
  obtain ⟨t, e, ht, htvol, htold, htenv⟩ := exec_mute_unmutes hn (by omega) hcount hold hv hend henv hlen
  exact ⟨t, e, htvol, htold, ht.idle, htenv, ht.done⟩

/-- Settles O52: the STEPs before the one that does not resolve stay between the volume at entry and the goal
of the branch. -/
theorem muteAbortsOnProtocolError : Obligations.MuteAbortsOnProtocolError := by
  intro s answers a b rest j hn hrange henv hlen hinv hbranch
  have hzero := volumeInRange_zero s.params.volW
  have hloop : volumeInRange s.params.volW s.vol = true ∧
      volumeInRange s.params.volW (s.vol + dirInt (muteDirection s) * j) = true ∧ j < muteSteps s := by
    obtain ⟨hpos, hj⟩ | ⟨hvol, hj⟩ := hbranch
    · rw [if_pos hpos] at hrange
      rw [vol_add_of_pos hpos, muteSteps_of_pos hpos]
      exact ⟨hrange, volumeInRange_between hzero hrange (by omega) (by omega), by omega⟩
    · rw [if_neg hvol.not_gt] at hrange
      rw [vol_add_of_not_pos hvol.not_gt, muteSteps_of_zero hvol, hvol, zero_add]
      exact ⟨hzero, volumeInRange_between hzero hrange (by omega) (by omega), by omega⟩
  obtain ⟨hv, hend, hj⟩ := hloop
  obtain ⟨t, e, ht, htmode, htenv⟩ := exec_mute_aborts hn hlen hv hend henv hinv hj
  refine ⟨t, e, ht.volumes_of_pos, fun hvol => ?_, htmode, ht.idle, ht.now, htenv, ht.done⟩
  obtain ⟨htold, htvol⟩ := ht.volumes_of_not_pos hvol.not_gt
  exact ⟨htold, by omega⟩

/-! Without a STEP. -/

/-- A MUTE that counts no STEP takes five cycles: the pulse, the branch, DONE. -/
theorem runCommand_mute_noSteps {s : State} (hr : noResetFor 5 s.host = true) (h0 : muteSteps s = 0) :
    runCommand .mute s =
      .next (place .idle (hostAfter 5 s.host) (emit (.done .ok) (muteBranch (afterPulse s)))) := by
  rw [noResetFor_add 3 2, noResetFor_add 1 1, Bool.and_eq_true, Bool.and_eq_true] at hr
  obtain ⟨hr3, hr4, hr5⟩ := hr
  have hbranch : resetDriven (hostAfter 3 s.host) = false := by simpa [noResetFor] using hr4
  have hdone : resetDriven (hostWhileBusy (hostAfter 3 s.host)) = false := by
    simpa [noResetFor, hostAfter] using hr5
  have hcycles : commandCycles .mute s = 1 + 1 + 3 := by rw [commandCycles, h0]; rfl
  rw [runCommand_eq, hcycles, startPos, runBusy_pulse hr3]
  refine (runBusy_branch hbranch .mute 1 (afterPulse s)).trans ?_
  rw [startLoop_muteBranch_zero (s := afterPulse s) h0]
  exact runBusy_done hdone .mute 0 _

/-- Settles O50: the branch counts no STEP and writes at most `n`. -/
theorem muteWithoutSteps : Obligations.MuteWithoutSteps := by
  intro s hr hcase
  have hnot : ¬ 0 < (afterPulse s).vol := by
    show ¬ 0 < s.vol
    omega
  have h0 : muteSteps s = 0 := by
    obtain ⟨hvol, hold⟩ | ⟨hneg, hmode⟩ := hcase
    · rw [muteSteps_of_zero hvol]
      omega
    · exact muteSteps_of_noop hneg hmode
  refine ⟨(muteBranch (afterPulse s)).n, ?_⟩
  rw [exec_mute, runCommand_mute_noSteps hr h0]
  conv_lhs => rw [muteBranch_eq, if_neg hnot]
  simp [place, emit, afterPulse]

end Sys2Proof.Machine
end

section
/-! The power button (44_power.md R200 to R203): the pulse of PRESS_POWER as its press and its release, the
waveform of its events, and POWER as the activity pulse, one PRESS_POWER and DONE. -/

namespace Sys2Proof.Machine

open Sys2Proof.Safety

/-- The events with which PRESS_POWER presses the button at time `t` (R201). -/
def pressEvents (t : Nat) : History := [(t, .latch .pwr .low), (t, .mode .pwr .output)]

/-- The events with which PRESS_POWER releases the button at time `t` (R201). -/
def releaseEvents (t : Nat) : History := [(t, .latch .pwr .high), (t, .mode .pwr .input)]

/-- The state after PRESS_POWER (R201). -/
def afterPress (s : State) : State :=
  { s with
    mode := { s.mode with pwr := .input }
    lat := { s.lat with pwr := .high }
    now := s.now + s.params.tPower
    history := s.history ++ (pressEvents s.now ++ releaseEvents (s.now + s.params.tPower)) }

theorem codeEnd_power_afterPress (s : State) : codeEnd powerCode s = .ran (afterPress s) := codeEnd_power s

theorem exec_pressPower (s : State) : exec .pressPower s = .next (afterPress s) := by
  rw [exec, execPressPower, ← codeEnd_out, codeEnd_power_afterPress, CodeEnd.out]

/-- Settles O40, from the lines of PRESS_POWER. -/
theorem pressPowerPulses : Obligations.PressPowerPulses := exec_pressPower

/-! The waveform. -/

/-- At time `t` the pad shows what the events up to `t` have made of it (00_scope.md R14). -/
theorem padAt_append {before after : History} {t : Nat} (hb : ∀ x ∈ before, x.1 ≤ t) (ha : ∀ x ∈ after, t < x.1)
    (l : Line) (ml : Mode × Level) :
    padAt l ml (before ++ after) t = driveOf (padReplay l ml before).1 (padReplay l ml before).2 := by
  have hbefore : before.filter (fun x => decide (x.1 ≤ t)) = before :=
    List.filter_eq_self.2 fun x hx => decide_eq_true (hb x hx)
  have hafter : after.filter (fun x => decide (x.1 ≤ t)) = [] :=
    List.filter_eq_nil_iff.2 fun x hx => by simpa using ha x hx
  rw [padAt, List.filter_append, hbefore, hafter, List.append_nil]

theorem time_of_mem_pressEvents {t : Nat} {x : Nat × Event} (hx : x ∈ pressEvents t) : x.1 = t := by
  obtain rfl | rfl : x = _ ∨ x = _ := by simpa [pressEvents] using hx
  all_goals rfl

theorem time_of_mem_releaseEvents {t : Nat} {x : Nat × Event} (hx : x ∈ releaseEvents t) : x.1 = t := by
  obtain rfl | rfl : x = _ ∨ x = _ := by simpa [releaseEvents] using hx
  all_goals rfl

theorem padReplay_pressEvents (ml : Mode × Level) (t : Nat) : padReplay .pwr ml (pressEvents t) = (.output, .low) := rfl

theorem padReplay_releaseEvents (ml : Mode × Level) (t : Nat) :
    padReplay .pwr ml (releaseEvents t) = (.input, .high) := rfl

/-- Every event of a PRESS_POWER is at its press or at its release. -/
theorem time_of_mem_press_release {t t' : Nat} {x : Nat × Event} (hx : x ∈ pressEvents t ++ releaseEvents t') :
    x.1 = t ∨ x.1 = t' :=
  (List.mem_append.1 hx).imp time_of_mem_pressEvents time_of_mem_releaseEvents

/-- Settles O41: before the press no event counts, until the release the press alone, from then on both. -/
theorem powerPadWaveform : Obligations.PowerPadWaveform := by
  intro s t h hmode
  cases (exec_pressPower s).symm.trans h
  refine ⟨pressEvents s.now ++ releaseEvents (s.now + s.params.tPower), rfl,
    fun u => ⟨fun hu => ?before, fun hpress hu => ?low, fun hu => ?released⟩⟩
  case before =>
    rw [← List.nil_append (_ ++ _), padAt_append (by simp), padReplay_nil, hmode, driveOf]
    intro x hx
    have := time_of_mem_press_release hx
    omega
  case low =>
    rw [padAt_append, padReplay_pressEvents, driveOf]
    · exact fun x hx => (time_of_mem_pressEvents hx).trans_le hpress
    · exact fun x hx => (time_of_mem_releaseEvents hx).symm ▸ hu
  case released =>
    rw [← List.append_nil (_ ++ _), padAt_append _ (by simp), padReplay_append, padReplay_releaseEvents, driveOf]
    intro x hx
    have := time_of_mem_press_release hx
    omega

/-! The command. -/

theorem exec_power (s : State) : exec .power s = runCommand .power s := rfl

/-- POWER takes eight cycles: three for the activity pulse, four for PRESS_POWER, one for DONE (R200). -/
theorem runCommand_power_completes {s : State} (hr : noResetFor 8 s.host = true) :
    runCommand .power s =
      .next (place .idle (hostAfter 8 s.host) (emit (.done .ok) (afterPress (afterPulse s)))) := by
  rw [noResetFor_add 3 5, noResetFor_add 4 1, Bool.and_eq_true, Bool.and_eq_true] at hr
  obtain ⟨hpulse, hpress, hlast⟩ := hr
  have hdone : resetDriven (hostAfter 4 (hostAfter 3 s.host)) = false := by simpa [noResetFor] using hlast
  have hbody : runCommand .power s = runBusy (1 + 4)
      (place (.busy .power (.power 0)) (hostAfter 3 s.host) (afterPulse s)) := runBusy_pulse hpulse .power 5 s
  rw [hbody, runBusy_power hpress, codeEnd_power_afterPress]
  exact runBusy_done hdone .power 0 _

/-- Settles O46. -/
theorem powerCompletes : Obligations.PowerCompletes := by
  intro s hr
  rw [exec_power, runCommand_power_completes hr]
  simp [place, emit, afterPress, afterPulse, pressEvents, releaseEvents]

end Sys2Proof.Machine
end

section
/-! Exceptions and faults (60_exceptions.md R223, R224, R229, R235): an idle block waits, the overflow of a
finite VOL_W ends a STEP and a volume command in FAULT, and a block with unbounded volumes never gets there. -/

namespace Sys2Proof.Machine

open Sys2Proof.Safety

/-- Settles O16: no reset is taken and no word is accepted, so the tape moves on and nothing else. -/
theorem idleStepWaits : Obligations.IdleStepWaits := by
  intro s hi hw hr
  simp only [step, hr, hi, hw, Bool.false_eq_true, if_false]

/-! A finite VOL_W. -/

/-- A volume command whose STEP leaves the range of a finite VOL_W ends after its release, in FAULT. -/
theorem runCommand_volume_overflows {c : Cmd} {d : Direction} {s : State} {p : Phase}
    (hc : (c = .volumeUp ∧ d = .plus) ∨ (c = .volumeDown ∧ d = .minus)) (hr : noResetFor 17 s.host = true)
    (hp : readPhase (afterPulse s) = some p) (hv : volumeInRange s.params.volW (s.vol + dirInt d) = false) :
    runCommand c s = .next (place (.fault .volumeOverflow) (hostAfter 17 s.host)
      { stepEnd d p (readBack (afterPulse s)) with vol := s.vol }) := by
  rw [noResetFor_add 3 14, Bool.and_eq_true] at hr
  obtain ⟨hr3, hr14⟩ := hr
  have hp' : readPhase { afterPulse s with d := d } = some p := hp
  have hv' : volumeInRange (afterPulse s).params.volW ((afterPulse s).vol + dirInt d) = false := hv
  rw [runCommand_volume_body hc hr3, runBusy_oneStep hr14, hp']
  simp only [hv', Bool.false_eq_true, if_false]
  rfl

/-! Unbounded volumes. -/

/-- The block has unbounded volumes (00_scope.md R9) and has not overflowed. -/
def NoOverflow (s : State) : Prop := s.params.volW = none ∧ s.seq ≠ .fault .volumeOverflow

section NoOverflow
variable {s : State} (hs : NoOverflow s)
include hs

/-- Only the parameters and the position matter. -/
theorem NoOverflow.of_eq {t : State} (hp : t.params = s.params) (hq : t.seq ≠ .fault .volumeOverflow) :
    NoOverflow t := ⟨hp ▸ hs.1, hq⟩

theorem noOverflow_enterFault (op : LineOp) (l : Line) : NoOverflow (enterFault (.lineModeViolation op l) s) :=
  hs.of_eq rfl (by simp)

theorem noOverflow_readLine (l : Line) : NoOverflow (readLine l s) := by
  cases h : get s.mode l with
  | input => rw [readLine_of_input h]; exact hs
  | output => rw [readLine_of_output h]; exact noOverflow_enterFault hs _ _

theorem noOverflow_writeLine (l : Line) (b : Level) : NoOverflow (writeLine l b s) := by
  cases h : get s.mode l with
  | input => rw [writeLine_of_input h]; exact noOverflow_enterFault hs _ _
  | output => rw [writeLine_of_output h]; exact hs

theorem noOverflow_pairOp (op : PairOp) : NoOverflow (pairOp op s) := by
  cases op with
  | setModeIn | setModeOut => exact hs
  | read =>
    rw [pairOp]
    cases h : s.mode.vdown with
    | input => rw [readPair_of_vdown_input h]; exact noOverflow_readLine (noOverflow_readLine hs _) _
    | output => rw [readPair_of_vdown_output h]; exact noOverflow_readLine hs _
  | write a b =>
    rw [pairOp]
    cases h : s.mode.vdown with
    | input => rw [writePair_of_vdown_input h]; exact noOverflow_writeLine hs _ _
    | output => rw [writePair_of_vdown_output h]; exact noOverflow_writeLine (noOverflow_writeLine hs _ _) _ _

/-- With unbounded volumes `vol <- vol + d` raises nothing, and no other line overflows. -/
theorem noOverflow_afterLine (a : Action) : NoOverflow (afterLine a s) := by
  refine hs.of_eq (registersKept_afterLine a s).1 ?_
  cases hr : raises a s with
  | false => rw [afterLine_seq hr]; exact hs.2
  | true =>
    have h := afterLine_raise hr
    generalize afterLine a s = t at h
    cases h with
    | overflow hv => simp [hs.1] at hv
    | _ => simp

theorem noOverflow_runCode {code : List Action} {t : State} (h : runCode code s = .next t) : NoOverflow t := by
  induction code generalizing s with
  | nil => cases h; exact hs
  | cons a rest ih =>
    have ha := noOverflow_afterLine hs a
    simp only [runCode, runAction_eq] at h
    split at h
    · cases h; exact ha
    · exact ih ha h

theorem noOverflow_host (h : List HostMove) : NoOverflow { s with host := h } := hs

theorem noOverflow_resetBlock : NoOverflow (resetBlock s) := hs.of_eq rfl nofun

theorem noOverflow_accept (w : CmdWord) : NoOverflow (accept w s) := hs.of_eq rfl nofun

end NoOverflow

theorem noOverflow_tick : ∀ s t, NoOverflow s → tick s = .next t → NoOverflow t := by
  refine tick_keeps (fun s k hs _ => ?_) (fun s c k hs _ _ => noOverflow_afterLine hs _) (fun s c k hs _ _ => ?_)
  · have ha := noOverflow_afterLine hs (bootCode.get k)
    refine ha.of_eq ?_ ?_
    · obtain ⟨q, e⟩ := advanceBoot_eq k (afterLine (bootCode.get k) s)
      rw [e]
    · obtain ⟨j, e⟩ | e := advanceBoot_seq (afterLine (bootCode.get k) s) k <;> rw [e] <;> nofun
  · exact (noOverflow_afterLine hs _).of_eq (advance_params ..) (advance_seq_ne_fault c k _ _)

theorem noOverflow_cycle : ∀ s t, NoOverflow s → cycle s = .next t → NoOverflow t :=
  cycle_keeps (fun _ => noOverflow_resetBlock) (fun _ h hs => noOverflow_host hs h) noOverflow_tick

theorem noOverflow_runCommand {c : Cmd} {s t : State} (hs : NoOverflow s) (h : runCommand c s = .next t) :
    NoOverflow t := by
  rw [runCommand_eq] at h
  have hstart : NoOverflow (place (.busy c (startPos c)) s.host s) := hs.of_eq rfl nofun
  exact runBusy_keeps noOverflow_cycle _ _ t hstart h

/-- Also for a command that a reset cuts short (70_reset_and_hazards.md R250). -/
theorem noOverflow_exec {i : Instr} {s t : State} (hs : NoOverflow s) (h : exec i s = .next t) : NoOverflow t := by
  cases i with
  | volumeUp | volumeDown | mute | power => exact noOverflow_runCommand hs h
  | unrecognized code => exact noOverflow_runCommand (s := { s with cmd := { s.cmd with code := code } }) hs h
  | setModeIn | setModeOut | wait | setAct | emit => cases h; exact hs
  | read l => cases h; exact noOverflow_readLine hs l
  | write l b => cases h; exact noOverflow_writeLine hs l b
  | pair op => cases h; exact noOverflow_pairOp hs op
  | resolve sd su =>
    simp only [exec, execResolve] at h
    split at h <;> cases h
    · exact hs
    · exact hs.of_eq rfl (by simp)
  | activityPulse | pressPower => exact noOverflow_runCode hs h
  | step d => exact noOverflow_runCode (s := { s with d := d }) hs h
  | bootSequence =>
    rw [exec, execBootSequence, andThen_eq_next] at h
    obtain ⟨u, hu, ⟨⟩⟩ := h
    exact (noOverflow_runCode hs hu).of_eq rfl nofun

theorem noOverflow_step : ∀ s t, NoOverflow s → step s = .next t → NoOverflow t :=
  step_keeps (fun _ => noOverflow_resetBlock) (fun _ h hs => noOverflow_host hs h) noOverflow_tick
    (fun _ w hs _ => noOverflow_accept hs w)

/-- Settles O39: a STEP and a volume command overflow at their last line, after the release, and with
unbounded volumes no instruction does. -/
theorem finiteVolumeFaultsOnOverflow : Obligations.FiniteVolumeFaultsOnOverflow := by
  refine ⟨fun d s p hp hv => ?step, ?command, fun i s t hw hq h => (noOverflow_exec ⟨hw, hq⟩ h).2⟩
  case step =>
    rw [exec_step, execStep_overflow hp hv]
    rfl
  case command =>
    rintro s d i p (⟨rfl, rfl⟩ | ⟨rfl, rfl⟩) hr hp hv
    · exact runCommand_volume_overflows (.inl ⟨rfl, rfl⟩) hr hp hv
    · exact runCommand_volume_overflows (.inr ⟨rfl, rfl⟩) hr hp hv

/-- Settles O57: a safe state with unbounded volumes is in no fault, so its step answers; the state it
answers is safe (O55), where a fault could only be an overflow, and it has not overflowed. -/
theorem safeStepsAlwaysAnswer : Obligations.SafeStepsAlwaysAnswer := by
  intro s hs hw
  have hfault : ∀ r, s.seq ≠ .fault r := fun r hr => (hs.fault r hr).2 hw
  obtain ⟨t, ht⟩ | ⟨r, -, hr, -⟩ := step_answers s
  · refine ⟨t, ht, fun r hr => ?_⟩
    obtain rfl := ((stepKeepsSafeStates s t hs ht).fault r hr).1
    exact (noOverflow_step s t ⟨hw, hfault _⟩ ht).2 hr
  · exact absurd hr (hfault r)

end Sys2Proof.Machine
end

section
/-! Reset and boot (70_reset_and_hazards.md R250 to R252; 60_exceptions.md R223): a reset in any state, a reset
in any cycle of a chain of lines, and the boot sequence as one operation and step by step. -/

namespace Sys2Proof.Machine

open Sys2Proof.Safety

/-! Reset. -/

@[simp] theorem get_mode_resetBlock (s : State) (l : Line) : get (resetBlock s).mode l = .input := by cases l <;> rfl

/-- A reset depends only on what is outside the block: the parameters and the two tapes. -/
theorem resetBlock_congr {s t : State} (hp : t.params = s.params) (he : t.env = s.env) (hh : t.host = s.host) :
    resetBlock t = resetBlock s := by
  rw [resetBlock, hp, he, hh, resetBlock]

/-- In FAULT a step without a reset is the fault once the tape is empty, and moves the tape before. -/
theorem step_of_fault {s : State} {r : Fault} (hs : s.seq = .fault r) (hr : resetDriven s.host = false) :
    (s.host = [] → step s = .fault r) ∧
      (s.host ≠ [] → step s = .next { s with host := hostWhileBusy s.host }) := by
  have hcycle : step s = cycle s := step_of_not_idle (by simp [hs])
  refine ⟨fun hh => ?_, fun hh => ?_⟩
  · rw [hcycle, cycle_of_finalFault (finalFault_eq_some.2 ⟨hh, hs⟩)]
  · have hf : finalFault s = none := Option.eq_none_iff_forall_ne_some.2 fun _ e => hh (finalFault_eq_some.1 e).1
    rw [hcycle, cycle_of_no_reset hr hf]
    simp only [tick, hs]

/-- Settles O10: a reset goes before all else, and in FAULT nothing but a reset counts. -/
theorem resetFromAnyState : Obligations.ResetFromAnyState := by
  refine ⟨fun s hr => ⟨_, step_of_reset hr, rfl, rfl, get_mode_resetBlock _, rfl, rfl, rfl, nofun, rfl, rfl, rfl⟩,
    fun s r hs hr => ⟨?_, step_of_fault hs hr⟩⟩
  simp [ready, hs]

/-! Lists of lines that run to their end. -/

theorem codeEnd_cons_eq_ran {a : Action} {code : List Action} {s t : State} :
    codeEnd (a :: code) s = .ran t ↔ raises a s = false ∧ codeEnd code (afterLine a s) = .ran t := by
  cases hr : raises a s with
  | true => simp [codeEnd, hr]
  | false => cases he : codeEnd code (afterLine a s) <;> simp [codeEnd, hr, he, CodeEnd.succ]

theorem codeEnd_append_eq_ran {code code' : List Action} {s t : State} :
    codeEnd (code ++ code') s = .ran t ↔ ∃ u, codeEnd code s = .ran u ∧ codeEnd code' u = .ran t := by
  induction code generalizing s with
  | nil => simp [codeEnd]
  | cons a rest ih => simp only [List.cons_append, codeEnd_cons_eq_ran, ih, and_assoc, exists_and_left]

/-! A reset inside a command. -/

theorem afterLine_params (a : Action) (s : State) : (afterLine a s).params = s.params :=
  (registersKept_afterLine a s).1

/-- Only READ2 takes answers of the environment (40_line_primitives.md R110). -/
theorem afterLine_env {a : Action} {s : State} (hr : raises a s = false) (ha : a ≠ .pairRead) :
    (afterLine a s).env = s.env := by
  have h := afterLine_effect hr
  generalize afterLine a s = t at h
  cases a with
  | lineWrite | addVolume => obtain ⟨-, rfl⟩ := h; rfl
  | drive => obtain ⟨-, -, rfl⟩ := h; rfl
  | resolve => obtain ⟨p, -, rfl⟩ := h; rfl
  | branch => obtain ⟨-, e⟩ | ⟨-, e⟩ | ⟨-, -, e⟩ := muteBranch_cases s <;> rw [show t = _ from h, e]
  | pairRead => exact absurd rfl ha
  | _ => subst h; rfl

/-- A reset in a cycle of a command ends the run of the command: the block boots. -/
theorem runBusy_reset (c : Cmd) (k : Pos) (m : Nat) (rest : List HostMove) (s : State) :
    runBusy (m + 1) (place (.busy c k) (.reset :: rest) s) = .next (resetBlock { s with host := rest }) :=
  runBusy_of_not_busy rfl m

/-- A reset in cycle `k` of a chain of lines that raise nothing and sense nothing leaves the reset state of the
block that the chain began in. -/
theorem runBusy_chain_reset {c : Cmd} {last : Pos} (rest : List HostMove) {ks : List Pos} :
    ∀ {k : Nat} {s t : State}, leadsTo c ks last → codeEnd (ks.map (actionAt c)) s = .ran t →
      .pairRead ∉ ks.map (actionAt c) → k ≤ ks.length →
      runBusy (ks.length + 1) (place (.busy c (firstOf ks last)) (List.replicate k .nothing ++ .reset :: rest) s) =
        .next (resetBlock { s with host := rest }) := by
  induction ks with
  | nil =>
    intro k s t _ _ _ hk
    obtain rfl : k = 0 := Nat.le_zero.1 hk
    exact runBusy_reset c last 0 rest s
  | cons q ks ih =>
    intro k s t hc ht hread hk
    cases k with
    | zero => exact runBusy_reset c q _ rest s
    | succ k =>
      obtain ⟨hq, hks⟩ := hc
      obtain ⟨hraise, ht⟩ := codeEnd_cons_eq_ran.1 ht
      obtain ⟨hsense, hread⟩ := not_or.1 fun h => hread (List.mem_cons.2 h)
      have hreset : resetBlock { afterLine (actionAt c q) s with host := rest } = resetBlock { s with host := rest } :=
        resetBlock_congr (afterLine_params _ s) (afterLine_env hraise (Ne.symm hsense)) rfl
      rw [firstOf, List.replicate_succ, List.cons_append, runBusy_line rfl, if_neg (ne_true_of_eq_false hraise), hq,
        ← hreset]
      exact ih (s := afterLine (actionAt c q) s) hks ht hread (Nat.le_of_succ_le_succ hk)

/-- The positions of POWER before its DONE (44_power.md R200). -/
def powerPositions : List Pos := [.pulse 0, .pulse 1, .pulse 2, .power 0, .power 1, .power 2, .power 3]

/-- Its lines are those of the pulse and of PRESS_POWER. -/
theorem powerPositions_code : powerPositions.map (actionAt .power) = pulseCode ++ powerCode := rfl

/-- Whichever cycle of POWER the reset arrives in, DONE comes after the chain of its other lines. -/
theorem exec_power_reset {s : State} {k : Nat} {rest : List HostMove} (hk : k < 8)
    (hh : s.host = List.replicate k .nothing ++ .reset :: rest) :
    exec .power s = .next (resetBlock { s with host := rest }) := by
  have hcode : codeEnd (powerPositions.map (actionAt .power)) s = .ran (afterPress (afterPulse s)) := by
    rw [powerPositions_code]
    exact codeEnd_append_eq_ran.2 ⟨_, codeEnd_pulse s, codeEnd_power_afterPress _⟩
  have hchain : leadsTo .power powerPositions .done := by
    simp [powerPositions, leadsTo, firstOf, advance, startBody]
  rw [exec_power, runCommand_eq, hh]
  exact runBusy_chain_reset rest hchain hcode (by decide) (Nat.le_of_lt_succ hk)

/-- Settles O11: the reset leaves the reset state of the block that POWER started in. -/
theorem resetInsidePowerEndsIt : Obligations.ResetInsidePowerEndsIt := fun _ _ _ hk hh =>
  ⟨_, exec_power_reset hk hh, rfl, get_mode_resetBlock _, rfl, rfl, rfl, rfl, nofun, rfl, rfl⟩

/-! Boot. -/

/-- Settles O14, from the lines of the boot sequence. -/
theorem bootSequenceCompletes : Obligations.BootSequenceCompletes := by
  intro s
  rw [exec, execBootSequence, ← codeEnd_out, codeEnd_boot]
  rfl

/-- Where a boot stands after `j` of its lines. -/
def bootSeq (j : Nat) : Seq := if h : j < 8 then .boot ⟨j, h⟩ else .idle

theorem bootSeq_of_lt {j : Nat} (h : j < 8) : bootSeq j = .boot ⟨j, h⟩ := dif_pos h

theorem advanceBoot_eq_bootSeq (k : Fin 8) (s : State) : advanceBoot k s = { s with seq := bootSeq (k.val + 1) } := by
  unfold advanceBoot bootSeq
  split <;> rfl

/-- A step without a reset does one line of the boot sequence. -/
theorem step_boot_line {h : List HostMove} (hr : resetDriven h = false) (k : Fin 8) (s : State) :
    step (place (.boot k) h s) =
      .next (place (bootSeq (k.val + 1)) (hostWhileBusy h) (afterLine (bootCode.get k) s)) := by
  have ht : step (place (.boot k) h s) = tick (place (.boot k) (hostWhileBusy h) s) := step_of_boot rfl hr
  rw [ht, tick_boot rfl (runAction_eq _ _), advanceBoot_eq_bootSeq, afterLine_place]
  rfl

theorem andThen_next_right (o : Out) : andThen o .next = o := by cases o <;> rfl

/-- One more step at the end of a run. -/
theorem run_then_step {k : Nat} {s t : State} (h : core.run k s = .next t) : core.run (k + 1) s = step t := by
  induction k generalizing s with
  | zero => cases h; exact (run_succ 0 t).trans (andThen_next_right (step t))
  | succ k ih =>
    rw [run_succ] at h ⊢
    obtain ⟨u, hu, hrun⟩ := (andThen_eq_next _).1 h
    rw [hu]
    exact ih hrun

/-- `j` steps of a boot without a reset are its first `j` lines. -/
theorem run_boot {s : State} (hs : s.seq = .boot 0) {j : Nat} (hj : j ≤ 8) (hr : noResetFor j s.host = true) :
    ∃ t, codeEnd (bootCode.take j) s = .ran t ∧
      core.run j s = .next (place (bootSeq j) (hostAfter j s.host) t) := by
  induction j with
  | zero =>
    have hstart : place (.boot 0) s.host s = s := by rw [place, ← hs]
    exact ⟨s, rfl, congrArg Host.Outcome.next hstart.symm⟩
  | succ j ih =>
    rw [noResetFor_add, Bool.and_eq_true] at hr
    obtain ⟨hbefore, hthen⟩ := hr
    have hlast : resetDriven (hostAfter j s.host) = false := by simpa [noResetFor] using hthen
    obtain ⟨t, hcode, hrun⟩ := ih (Nat.le_of_succ_le hj) hbefore
    refine ⟨afterLine (bootCode.get ⟨j, hj⟩) t, ?_, ?_⟩
    · rw [← List.take_concat_get' bootCode j hj]
      exact codeEnd_append_eq_ran.2 ⟨t, hcode, codeEnd_cons_eq_ran.2 ⟨raises_bootCode ⟨j, hj⟩ t, rfl⟩⟩
    · rw [bootSeq_of_lt hj] at hrun
      rw [run_then_step hrun, hostAfter_add]
      exact step_boot_line hlast ⟨j, hj⟩ t

/-- Settles O13: eight steps are the whole boot sequence, and before the last of them the block boots. -/
theorem bootRunReachesIdle : Obligations.BootRunReachesIdle := by
  intro s hs hr
  refine ⟨?_, fun k t hk ht => ?_⟩
  · obtain ⟨t, hcode, hrun⟩ := run_boot hs le_rfl hr
    cases (codeEnd_boot s).symm.trans hcode
    exact hrun
  · obtain ⟨u, -, hrun⟩ := run_boot hs hk.le (noResetFor_mono hk.le hr)
    cases hrun.symm.trans ht
    simp [ready, bootSeq_of_lt hk]

end Sys2Proof.Machine
end
